-- ==== Sys2Proof/Word.lean ====
section
/-! DEFINITION. The 16-bit word and the register index (spec 00_scope.md R8, 10_state.md R20). -/

namespace Sys2Proof

/-- A 16-bit word: what a register, a memory word and an instruction hold (00_scope.md R8 `XLEN`,
`ILEN`). Bit 15 is the most significant (R9). -/
abbrev Word := BitVec 16

/-- A register index 0..7: the value of a 3-bit register field, each of which names a register
(10_state.md R20, 30_encoding.md R66). -/
abbrev RegIndex := Fin 8

end Sys2Proof
end

