-- ==== Sys2Proof/Config.lean ====
section
/-! DEFINITION. The implementation parameters of the core, at the values spec 00_scope.md R8 and
10_state.md R39 give them. -/

namespace Sys2Proof.Config

/-- `MEM_WORDS`: the memory has 8192 words (00_scope.md R8, 20_memory.md R40). -/
def memWords : Nat := 8192

/-- The highest word address, 8191 (20_memory.md R40). -/
def lastAddress : Nat := 8191

/-- The largest immediate: the field has 4 bits and is unsigned (00_scope.md R8, 30_encoding.md R65). -/
def maxImmediate : Nat := 15

/-- The reset vector: the first fetch reads `M[0]` (10_state.md R39, 70_reset_and_hazards.md R160). -/
def resetPc : Nat := 0

/-- Every register holds 0 after reset (10_state.md R39). -/
def resetRegister : Word := 0

/-- What a memory word holds that neither the image nor a `sw` has written: 0 (10_state.md R39).
This is the one definition of what an unlisted address of the memory list reads as. -/
def unlistedWord : Word := 0

/-- The default of the parameter `HALT_SENTINEL`, the pc reported in the halted state: -1
(00_scope.md R8, 10_state.md R32). -/
def defaultHaltSentinel : Int := -1

/-- A marker is out of band when no register can hold it: `HALT_SENTINEL` must be so
(10_state.md R32, 90_conflicts.md C6). -/
def OutOfBand (marker : Int) : Prop := marker < 0 ∨ 65535 < marker

end Sys2Proof.Config
end

