-- ==== Sys2Proof/Syntax.lean ====
section
/-! DEFINITION. The instructions, one constructor per row of spec/opcode_table.json. -/

namespace Sys2Proof

/-- The nine instructions of 30_encoding.md R63, with the fields each uses; a field the instruction
ignores is not an operand of it (R67). Operands stand in field order `rd`, `rs1`, then `rs2` or
`imm` (R72). An immediate is a natural number here, so that one above 15 can be written down and
refused (R72); `Instr.WellFormed` bounds it (log entry 9). -/
inductive Instr where
  /-- The word 0x0000: stop the core (45_halt.md R130). -/
  | halt
  /-- `add $rd, $rs1, $rs2` (41_arithmetic.md R100). -/
  | add (rd rs1 rs2 : RegIndex)
  /-- `addi $rd, $rs1, imm` (41_arithmetic.md R101). -/
  | addi (rd rs1 : RegIndex) (imm : Nat)
  /-- `sub $rd, $rs1, $rs2` (41_arithmetic.md R102). -/
  | sub (rd rs1 rs2 : RegIndex)
  /-- `subi $rd, $rs1, imm` (41_arithmetic.md R103). -/
  | subi (rd rs1 : RegIndex) (imm : Nat)
  /-- `lw $rd, $rs1, imm` (42_memory_access.md R111). -/
  | lw (rd rs1 : RegIndex) (imm : Nat)
  /-- `sw $rd, $rs1, imm`; `rd` names the register stored (42_memory_access.md R113). -/
  | sw (rd rs1 : RegIndex) (imm : Nat)
  /-- `slt $rd, $rs1, $rs2` (43_compare.md R120). -/
  | slt (rd rs1 rs2 : RegIndex)
  /-- `jeq $rd, $rs1, $rs2`; `rd` names the register holding the target (44_control.md R125). -/
  | jeq (rd rs1 rs2 : RegIndex)
deriving DecidableEq, Repr

end Sys2Proof
end

