-- ==== Sys2Proof/WellFormed.lean ====
section
/-! DEFINITION. Which instructions can be written: the immediate lies in 0..15 (30_encoding.md R65,
R72). A register operand is a `Fin 8`, so no register index is out of range (10_state.md R20). -/

namespace Sys2Proof

/-- The check of an immediate: 0..15, and one outside is refused, not reduced (30_encoding.md R72). -/
def immediateInRange (imm : Nat) : Bool := decide (imm ≤ Config.maxImmediate)

/-- The check of an instruction, arm by arm. -/
def Instr.wellFormed : Instr → Bool
  | .halt => true
  | .add _ _ _ => true
  | .addi _ _ imm => immediateInRange imm
  | .sub _ _ _ => true
  | .subi _ _ imm => immediateInRange imm
  | .lw _ _ imm => immediateInRange imm
  | .sw _ _ imm => immediateInRange imm
  | .slt _ _ _ => true
  | .jeq _ _ _ => true

/-- An instruction that the encoding can hold. -/
abbrev Instr.WellFormed (i : Instr) : Prop := i.wellFormed = true

end Sys2Proof
end

