-- ==== Sys2Proof/Decode.lean ====
section
/-! DEFINITION. Decoding and encoding of instruction words (spec 30_encoding.md), and the opcode table
as mask and pattern rows (R74). -/

namespace Sys2Proof

/-! ### The fields of a word (R61, R62) -/

/-- `w[lo+2 : lo]`, a 3-bit field, as a number 0..7 (00_scope.md R9). -/
def threeBits (w : Word) (lo : Nat) : Fin 8 := ⟨w.toNat / 2 ^ lo % 8, Nat.mod_lt _ (by decide)⟩

/-- `w[lo+3 : lo]`, a 4-bit field, as a number 0..15 (00_scope.md R9). -/
def fourBits (w : Word) (lo : Nat) : Fin 16 := ⟨w.toNat / 2 ^ lo % 16, Nat.mod_lt _ (by decide)⟩

/-- The five-field tuple of a word (R61, R62). -/
structure Fields where
  opcode : Fin 8
  rd : RegIndex
  rs1 : RegIndex
  rs2 : RegIndex
  imm : Fin 16
deriving DecidableEq, Repr

/-- The fields of a word at the bit positions of R61: total, and no word is refused (R62). -/
def wordFields (w : Word) : Fields :=
  { opcode := threeBits w 13
    rd := threeBits w 10
    rs1 := threeBits w 7
    rs2 := threeBits w 4
    imm := fourBits w 0 }

/-- The word with the given fields: `opcode*8192 + rd*1024 + rs1*128 + rs2*16 + imm` (R61). -/
def packFields (f : Fields) : Word :=
  BitVec.ofNat 16
    (f.opcode.val * 8192 + f.rd.val * 1024 + f.rs1.val * 128 + f.rs2.val * 16 + f.imm.val)

/-! ### Decoding (R63, R64) -/

/-- The opcode map of R63, for a word that is not 0x0000. The immediate is zero-extended (R65). -/
def selectInstr (f : Fields) : Instr :=
  match f.opcode with
  | 0 => .add f.rd f.rs1 f.rs2
  | 1 => .addi f.rd f.rs1 f.imm.val
  | 2 => .sub f.rd f.rs1 f.rs2
  | 3 => .subi f.rd f.rs1 f.imm.val
  | 4 => .lw f.rd f.rs1 f.imm.val
  | 5 => .sw f.rd f.rs1 f.imm.val
  | 6 => .slt f.rd f.rs1 f.rs2
  | 7 => .jeq f.rd f.rs1 f.rs2

/-- The instruction of a word: 0x0000 is `halt`, every other word goes by its opcode (R64). Total:
no encoding is illegal or reserved (R68), so there is nothing to reject. -/
def decode (w : Word) : Instr :=
  if w = 0 then .halt else selectInstr (wordFields w)

/-! ### Encoding (R72) -/

/-- `opcode rd rs1 rs2 0000`: the form of the three-register instructions; the ignored `imm` is
written as zero (R72). -/
def encodeRegs (opcode : Fin 8) (rd rs1 rs2 : RegIndex) : Word :=
  packFields { opcode := opcode, rd := rd, rs1 := rs1, rs2 := rs2, imm := 0 }

/-- `opcode rd rs1 000 imm`: the form of the immediate instructions; the ignored `rs2` is written as
zero (R72). -/
def encodeImm (opcode : Fin 8) (rd rs1 : RegIndex) (imm : Nat) : Word :=
  packFields { opcode := opcode, rd := rd, rs1 := rs1, rs2 := 0, imm := Fin.ofNat 16 imm }

/-- `add`'s word; `add $0, $0, $0` is written with `imm` = 1, so that it does not spell `halt`
(R70, R72). -/
def encodeAdd (rd rs1 rs2 : RegIndex) : Word :=
  if rd = 0 ∧ rs1 = 0 ∧ rs2 = 0 then 0x0001 else encodeRegs 0 rd rs1 rs2

/-- The word R72's table gives a well-formed instruction. -/
def encodeWord : Instr → Word
  | .halt => 0x0000
  | .add rd rs1 rs2 => encodeAdd rd rs1 rs2
  | .addi rd rs1 imm => encodeImm 1 rd rs1 imm
  | .sub rd rs1 rs2 => encodeRegs 2 rd rs1 rs2
  | .subi rd rs1 imm => encodeImm 3 rd rs1 imm
  | .lw rd rs1 imm => encodeImm 4 rd rs1 imm
  | .sw rd rs1 imm => encodeImm 5 rd rs1 imm
  | .slt rd rs1 rs2 => encodeRegs 6 rd rs1 rs2
  | .jeq rd rs1 rs2 => encodeRegs 7 rd rs1 rs2

/-- The encoder: the word of a well-formed instruction, and no word for an ill-formed one ("An
immediate outside 0..15 is refused, not reduced", R72). -/
def encode (i : Instr) : Option Word :=
  if i.wellFormed then some (encodeWord i) else none

/-! ### The opcode table (R74) -/

/-- The mnemonic of an instruction, as spec/opcode_table.json spells it. -/
def Instr.mnemonic : Instr → String
  | .halt => "halt"
  | .add _ _ _ => "add"
  | .addi _ _ _ => "addi"
  | .sub _ _ _ => "sub"
  | .subi _ _ _ => "subi"
  | .lw _ _ _ => "lw"
  | .sw _ _ _ => "sw"
  | .slt _ _ _ => "slt"
  | .jeq _ _ _ => "jeq"

/-- One row of spec/opcode_table.json (R74). -/
structure TableRow where
  mnemonic : String
  pattern : Word
  mask : Word
  except : List Word
  priority : Nat
deriving DecidableEq, Repr

/-- The nine rows of spec/opcode_table.json, in its order. -/
def opcodeTable : List TableRow :=
  [ { mnemonic := "halt", pattern := 0x0000, mask := 0xFFFF, except := [], priority := 1 },
    { mnemonic := "add", pattern := 0x0000, mask := 0xE000, except := [0x0000], priority := 2 },
    { mnemonic := "addi", pattern := 0x2000, mask := 0xE000, except := [], priority := 2 },
    { mnemonic := "sub", pattern := 0x4000, mask := 0xE000, except := [], priority := 2 },
    { mnemonic := "subi", pattern := 0x6000, mask := 0xE000, except := [], priority := 2 },
    { mnemonic := "lw", pattern := 0x8000, mask := 0xE000, except := [], priority := 2 },
    { mnemonic := "sw", pattern := 0xA000, mask := 0xE000, except := [], priority := 2 },
    { mnemonic := "slt", pattern := 0xC000, mask := 0xE000, except := [], priority := 2 },
    { mnemonic := "jeq", pattern := 0xE000, mask := 0xE000, except := [], priority := 2 } ]

/-- The match on mask and pattern alone, before `except` is looked at (R74). -/
def rowFits (row : TableRow) (w : Word) : Bool := w &&& row.mask == row.pattern

/-- A word matches a row: `(word & mask) == match` and the word is not in `except` (R74). -/
def rowMatches (row : TableRow) (w : Word) : Bool := rowFits row w && !row.except.contains w

/-- The row with the lower `priority` number, the earlier where they tie (R74). -/
def preferRow (best : Option TableRow) (row : TableRow) : Option TableRow :=
  match best with
  | none => some row
  | some b => if row.priority < b.priority then some row else some b

/-- Where two rows fit a word by mask and pattern, the one with the lower `priority` number wins:
`halt` over `add` (R74). -/
def winningRow (w : Word) : Option TableRow :=
  (opcodeTable.filter (rowFits · w)).foldl preferRow none

/-! ### The host's view of the decoder -/

/-- The instruction the decoder reads from an instruction whose bits are `w`, of which the table gives
`nbits`. Every instruction is one word (R60), so the word is the 16 bits `w[15:0]`, with every bit
from `nbits` up taken as 0. The decoder refuses nothing (R62, R68). -/
def decodeTableWord (nbits w : Nat) : Option Instr :=
  some (decode (BitVec.ofNat 16 (w % 2 ^ nbits)))

end Sys2Proof
end

