-- ==== Sys2Proof/Machine/State.lean ====
section
/-! DEFINITION. The state of the core, as plain data: the registers, the program counter, the run
status with its fault record, and the memory (spec 10_state.md: "Nothing else is state"). -/

namespace Sys2Proof.Machine

/-- The four causes of a fault (60_exceptions.md R140). -/
inductive FaultCause where
  /-- Code 1: `pc > 8191` at the start of a step. -/
  | fetchOutOfRange
  /-- Code 2: the effective address of an `lw` is above 8191. -/
  | loadOutOfRange
  /-- Code 3: the effective address of an `sw` is above 8191. -/
  | storeOutOfRange
  /-- Code 4: the target of a taken `jeq` is above 8191. -/
  | jumpTargetOutOfRange
deriving DecidableEq, Repr

/-- The fault record (10_state.md R30). -/
structure FaultRecord where
  /-- `fault_cause`. -/
  cause : FaultCause
  /-- `fault_pc`: the value of `pc` at the start of the faulting step. -/
  faultPc : Nat
  /-- `fault_value`: the out-of-range address or target. -/
  faultValue : Nat
deriving DecidableEq, Repr

/-- The run status (10_state.md R28). The fault record exists only in the FAULTED status (R30, R38). -/
inductive Status where
  | running
  | halted
  | faulted (record : FaultRecord)
deriving DecidableEq, Repr

/-- One memory word at a word address. The addressable unit is the 16-bit word and there is no byte
address (20_memory.md R41), so the cell is a word and not the host's byte (log entry 1). -/
abbrev Cell := Nat × Word

/-- The memory: the words that differ from what an unlisted address reads as
(`Config.unlistedWord`), by address. -/
abbrev Memory := List Cell

/-- The canonical form of a memory: addresses strictly rising, none outside 0..8191, and no entry equal
to what an unlisted address reads as. -/
abbrev Memory.wf (m : Memory) : Prop :=
  m.Pairwise (fun c d => c.1 < d.1) ∧
    ∀ c ∈ m, c.1 ≤ Config.lastAddress ∧ c.2 ≠ Config.unlistedWord

/-- The state of the core, in full (10_state.md R20 to R36). -/
structure State where
  /-- `x[0]` to `x[7]` (R20). -/
  regs : Vector Word 8
  /-- The program counter, a natural number (R24). -/
  pc : Nat
  /-- The run status, with the fault record while FAULTED (R28, R30). -/
  status : Status
  /-- `M[0]` to `M[8191]` (R35). -/
  mem : Memory
deriving DecidableEq, Repr

/-- The reset state (10_state.md R39, 70_reset_and_hazards.md R160) before any image word is loaded,
which is also the start of a run with an empty image (R161): registers 0, memory 0, `pc` 0, RUNNING.
`Loader.start` gives the start of a run with an image (log entry 2). -/
def State.reset : State :=
  { regs := Vector.replicate 8 Config.resetRegister
    pc := Config.resetPc
    status := .running
    mem := [] }

/-- Why there is no next state. The core's own faults are not here: taking one is a next state, the
FAULTED one (60_exceptions.md R141). -/
inductive Fault where
  /-- Raised by `step` alone: the state is HALTED, from which no step is taken (10_state.md R29). Safe:
  the model stops where the spec has no step. -/
  | noStepFromHalted
  /-- Raised by `step` alone: the state is FAULTED, from which no step is taken (10_state.md R29). Safe:
  the model stops where the spec has no step. -/
  | noStepFromFaulted
deriving DecidableEq, Repr

/-- Why an instruction has no meaning. Every instruction has one, so nothing is refused. -/
inductive Refusal where
  /-- Raised by an arm of `exec` for an instruction that has no meaning yet; no arm does. Safe. -/
  | notModelled (mnemonic : String)
deriving DecidableEq, Repr

/-- What a meaning or a step answers. -/
abbrev Answer := Host.Outcome State Fault Refusal

end Sys2Proof.Machine
end

