-- ==== Sys2Proof/Machine/Ops.lean ====
section
/-! DEFINITION. The named operations over the registers, the memory, the program counter and the run
status, wrapping arithmetic, and taking a fault. -/

namespace Sys2Proof.Machine

/-! ### Wrapping arithmetic (41_arithmetic.md R104) -/

/-- The exact sum, kept modulo 65536 (R104). -/
def wrapSum (a b : Nat) : Word := BitVec.ofNat 16 (a + b)

/-- The exact integer difference, kept as its remainder in 0..65535 modulo 65536 (R104). -/
def wrapDifference (a b : Nat) : Word := BitVec.ofInt 16 ((a : Int) - (b : Int))

/-! ### Registers (10_state.md R20, R21) -/

/-- `x[i]` (00_scope.md R11). -/
def State.reg (s : State) (i : RegIndex) : Word := s.regs[i]

/-- `x[i] <- v` (00_scope.md R11). Register 0 is written like any other (10_state.md R21). -/
def State.setReg (s : State) (i : RegIndex) (v : Word) : State := { s with regs := s.regs.set i v }

/-! ### Memory (20_memory.md R42) -/

/-- The word at an address: the listed one, else what an unlisted address reads as. -/
def Memory.read : Memory → Nat → Word
  | [], _ => Config.unlistedWord
  | (b, w) :: rest, a => if b = a then w else Memory.read rest a

/-- The memory without any word at address `a`, which then reads as an unlisted address does. -/
def Memory.erase : Memory → Nat → Memory
  | [], _ => []
  | (b, w) :: rest, a => if b = a then rest else (b, w) :: Memory.erase rest a

/-- The memory with `v` listed at address `a`, in rising order of addresses. -/
def Memory.insert : Memory → Nat → Word → Memory
  | [], a, v => [(a, v)]
  | (b, w) :: rest, a, v =>
    if a < b then (a, v) :: (b, w) :: rest
    else if b = a then (a, v) :: rest
    else (b, w) :: Memory.insert rest a v

/-- `M[a] <- v`, kept canonical. Defined for `a` in 0..8191; every rule checks `a` first (R42), and
outside that range nothing is written (log entry 3). -/
def Memory.write (m : Memory) (a : Nat) (v : Word) : Memory :=
  if a ≤ Config.lastAddress then
    if v = Config.unlistedWord then Memory.erase m a else Memory.insert m a v
  else m

/-- `MemRead(a, 1)` (20_memory.md R42). -/
def State.memRead (s : State) (a : Nat) : Word := Memory.read s.mem a

/-- `MemWrite(a, 1, v)` (20_memory.md R42). -/
def State.memWrite (s : State) (a : Nat) (v : Word) : State :=
  { s with mem := Memory.write s.mem a v }

/-! ### The program counter (10_state.md R25) -/

/-- `pc <- t` (00_scope.md R11). -/
def State.setPc (s : State) (t : Nat) : State := { s with pc := t }

/-- `pc <- pc + 1`, not reduced: it does not wrap from 8191 to 0 (R25). -/
def State.advancePc (s : State) : State := s.setPc (s.pc + 1)

/-! ### The run status -/

/-- `raise Fault(cause, value)`: taking a fault (60_exceptions.md R141). The status becomes FAULTED with
the cause, the `pc` of the faulting step and the value; no register, no memory word and not `pc` is
written. There is no handler to go to (R147) and no return from a fault (R142, R148), so no operation
undoes this one. -/
def State.raiseFault (s : State) (cause : FaultCause) (value : Nat) : State :=
  { s with status := .faulted { cause := cause, faultPc := s.pc, faultValue := value } }

/-- `enter_halted()`: the status becomes HALTED and nothing else is written (45_halt.md R130). -/
def State.enterHalted (s : State) : State := { s with status := .halted }

/-! ### Instruction fetch (40_execution_cycle.md R80, R81) -/

/-- The word at `pc` (R80), or none where `pc > 8191`: then the fetch does not happen (R81). -/
def State.fetch (s : State) : Option Word :=
  if s.pc ≤ Config.lastAddress then some (s.memRead s.pc) else none

/-- The state with `w` stored where the next fetch reads. Where `pc > 8191` no word is fetched and
nothing is stored. -/
def State.placeFetchWord (s : State) (w : Word) : State := s.memWrite s.pc w

end Sys2Proof.Machine
end

