-- ==== Sys2Proof/Machine/Operands.lean ====
section
/-! DEFINITION. The operand forms: a register's value, the unsigned immediate, the base plus immediate
effective address and the absolute jump target (spec 30_encoding.md R65, R66; 42_memory_access.md
R110; 44_control.md R125). There is no other operand form (R66). -/

namespace Sys2Proof.Machine

/-- The value of a register operand as a natural number 0..65535 (00_scope.md R10). -/
def State.regValue (s : State) (i : RegIndex) : Nat := (s.reg i).toNat

/-- The value of an immediate operand: `zext_16(w[3:0])`, neither sign-extended nor scaled
(30_encoding.md R65). -/
def immediateValue (imm : Nat) : Nat := imm

/-- The effective address of `lw` and `sw`: the exact sum `x[rs1] + imm`, not reduced (R110). -/
def State.effectiveAddress (s : State) (rs1 : RegIndex) (imm : Nat) : Nat :=
  s.regValue rs1 + immediateValue imm

/-- The target of `jeq`: the value of `x[rd]`, absolute (R125). -/
def State.jumpTarget (s : State) (rd : RegIndex) : Nat := s.regValue rd

end Sys2Proof.Machine
end

