-- ==== Sys2Proof/Machine/Arithmetic.lean ====
section
/-! DEFINITION. `add`, `addi`, `sub`, `subi` (spec 41_arithmetic.md). -/

namespace Sys2Proof.Machine

/-- Ends an instruction whose result goes to `x[rd]`: the register is written and `pc` advances. -/
def finishWithReg (rd : RegIndex) (v : Word) (s : State) : Answer :=
  .next (s.setReg rd v).advancePc

/-- `add $rd, $rs1, $rs2` (R100). -/
def execAdd (rd rs1 rs2 : RegIndex) (s : State) : Answer :=
  finishWithReg rd (wrapSum (s.regValue rs1) (s.regValue rs2)) s

/-- `addi $rd, $rs1, imm` (R101). -/
def execAddi (rd rs1 : RegIndex) (imm : Nat) (s : State) : Answer :=
  finishWithReg rd (wrapSum (s.regValue rs1) (immediateValue imm)) s

/-- `sub $rd, $rs1, $rs2` (R102). -/
def execSub (rd rs1 rs2 : RegIndex) (s : State) : Answer :=
  finishWithReg rd (wrapDifference (s.regValue rs1) (s.regValue rs2)) s

/-- `subi $rd, $rs1, imm` (R103). -/
def execSubi (rd rs1 : RegIndex) (imm : Nat) (s : State) : Answer :=
  finishWithReg rd (wrapDifference (s.regValue rs1) (immediateValue imm)) s

end Sys2Proof.Machine
end

