-- ==== Sys2Proof/Machine/Flags.lean ====
section
/-! DEFINITION. The comparisons. The core has no flags or condition codes (spec 10_state.md R27): the
result of `slt` goes to a register and `jeq` compares two registers directly. -/

namespace Sys2Proof.Machine

/-- `a <u b`, as the word `slt` writes: 1 or 0 (43_compare.md R120). -/
def lessThanWord (a b : Nat) : Word := if a < b then 1 else 0

/-- Whether `jeq` is taken: `x[rs1] = x[rs2]` (44_control.md R125). -/
def State.regsEqual (s : State) (rs1 rs2 : RegIndex) : Bool :=
  s.regValue rs1 == s.regValue rs2

end Sys2Proof.Machine
end

