-- ==== Sys2Proof/Machine/Compare.lean ====
section
/-! DEFINITION. `slt` (spec 43_compare.md). -/

namespace Sys2Proof.Machine

/-- `slt $rd, $rs1, $rs2`: set on less than, unsigned (R120). -/
def execSlt (rd rs1 rs2 : RegIndex) (s : State) : Answer :=
  finishWithReg rd (lessThanWord (s.regValue rs1) (s.regValue rs2)) s

end Sys2Proof.Machine
end

