-- ==== Sys2Proof/Machine/Control.lean ====
section
/-! DEFINITION. `jeq` (spec 44_control.md). -/

namespace Sys2Proof.Machine

/-- `jeq $rd, $rs1, $rs2` (R125): taken when the compared registers are equal; the target is checked
only then. -/
def execJeq (rd rs1 rs2 : RegIndex) (s : State) : Answer :=
  if s.regsEqual rs1 rs2 then
    if s.jumpTarget rd > Config.lastAddress then
      .next (s.raiseFault .jumpTargetOutOfRange (s.jumpTarget rd))
    else
      .next (s.setPc (s.jumpTarget rd))
  else
    .next s.advancePc

end Sys2Proof.Machine
end

