-- ==== Sys2Proof/Machine/LoadStore.lean ====
section
/-! DEFINITION. `lw` and `sw` (spec 42_memory_access.md). -/

namespace Sys2Proof.Machine

/-- `lw $rd, $rs1, imm` (R111): LOAD_OUT_OF_RANGE above 8191, else `x[rd] <- M[ea]`. -/
def execLw (rd rs1 : RegIndex) (imm : Nat) (s : State) : Answer :=
  if s.effectiveAddress rs1 imm > Config.lastAddress then
    .next (s.raiseFault .loadOutOfRange (s.effectiveAddress rs1 imm))
  else
    finishWithReg rd (s.memRead (s.effectiveAddress rs1 imm)) s

/-- `sw $rd, $rs1, imm` (R113): STORE_OUT_OF_RANGE above 8191, else `M[ea] <- x[rd]`. -/
def execSw (rd rs1 : RegIndex) (imm : Nat) (s : State) : Answer :=
  if s.effectiveAddress rs1 imm > Config.lastAddress then
    .next (s.raiseFault .storeOutOfRange (s.effectiveAddress rs1 imm))
  else
    .next (s.memWrite (s.effectiveAddress rs1 imm) (s.reg rd)).advancePc

end Sys2Proof.Machine
end

