-- ==== Sys2Proof/Machine/System.lean ====
section
/-! DEFINITION. `halt` (spec 45_halt.md). -/

namespace Sys2Proof.Machine

/-- `halt` (R130): `enter_halted()`. -/
def execHalt (s : State) : Answer := .next s.enterHalted

end Sys2Proof.Machine
end

