-- ==== Sys2Proof/Machine/Step.lean ====
section
/-! DEFINITION. One step of the core: fetch, decode, execute (spec 40_execution_cycle.md). -/

namespace Sys2Proof.Machine

/-- A step from a RUNNING state (R84): the fetch check comes first (R81, 60_exceptions.md R145), then
the fetched word is decoded and executed. -/
def runningStep (s : State) : Host.Outcome State Fault Refusal :=
  match s.fetch with
  | none => .next (s.raiseFault .fetchOutOfRange s.pc)
  | some w => exec (decode w) s

/-- A step is taken only when the status is RUNNING (R80). HALTED and FAULTED have no step (10_state.md
R29), so the model stops there, each under its own name (log entry 4). -/
def step (s : State) : Host.Outcome State Fault Refusal :=
  match s.status with
  | .running => runningStep s
  | .halted => .fault .noStepFromHalted
  | .faulted _ => .fault .noStepFromFaulted

/-- The state with the instruction whose bits are `w`, of which the table gives `nbits`, stored where
the next step fetches. It stands for the Loader, which fills memory from outside (log entry 2). -/
def State.withFetchWord (s : State) (nbits w : Nat) : State :=
  s.placeFetchWord (BitVec.ofNat 16 (w % 2 ^ nbits))

end Sys2Proof.Machine
end

