-- ==== Sys2Proof/Machine/Assembler.lean ====
section
/-! DEFINITION. The written form of instructions (spec 30_encoding.md R72): what an item of a program
assembles to, and how a word is printed. Reading assembler text is out of scope (00_scope.md R6). -/

namespace Sys2Proof

/-- `$0` to `$7` (R72). -/
def registerText (r : RegIndex) : String := "$" ++ toString r.val

/-- Mnemonic and operands in field order, separated as the source's example `addi $1, $0, 5` (R72). -/
def operandsText (mnemonic : String) (rd rs1 : RegIndex) (last : String) : String :=
  mnemonic ++ " " ++ registerText rd ++ ", " ++ registerText rs1 ++ ", " ++ last

/-- The written form of an instruction, its immediate in decimal (R72). -/
def Instr.text (i : Instr) : String :=
  match i with
  | .halt => i.mnemonic
  | .add rd rs1 rs2 => operandsText i.mnemonic rd rs1 (registerText rs2)
  | .addi rd rs1 imm => operandsText i.mnemonic rd rs1 (toString imm)
  | .sub rd rs1 rs2 => operandsText i.mnemonic rd rs1 (registerText rs2)
  | .subi rd rs1 imm => operandsText i.mnemonic rd rs1 (toString imm)
  | .lw rd rs1 imm => operandsText i.mnemonic rd rs1 (toString imm)
  | .sw rd rs1 imm => operandsText i.mnemonic rd rs1 (toString imm)
  | .slt rd rs1 rs2 => operandsText i.mnemonic rd rs1 (registerText rs2)
  | .jeq rd rs1 rs2 => operandsText i.mnemonic rd rs1 (registerText rs2)

/-- A disassembler prints a word by `decode`; ignored bits are dropped (R72). -/
def disassemble (w : Word) : String := (decode w).text

/-- One item of a written program: an instruction, or `.word v` for the raw word `v` (R72). -/
inductive AsmItem where
  | instr (i : Instr)
  | word (v : Nat)
deriving DecidableEq, Repr

/-- The word of an item: an immediate outside 0..15 is refused, not reduced (R72), and so is a raw word
that does not fit a memory word (10_state.md R22). -/
def AsmItem.assemble : AsmItem → Option Word
  | .instr i => encode i
  | .word v => if v < 65536 then some (BitVec.ofNat 16 v) else none

/-- The image of a written program, item by item; no image where an item is refused. -/
def assemble : List AsmItem → Option (List Word)
  | [] => some []
  | item :: rest => item.assemble.bind fun w => (assemble rest).map fun ws => w :: ws

end Sys2Proof
end

