-- ==== Sys2Proof/Machine/Loader.lean ====
section
/-! DEFINITION. The start of a run: image load and start (spec 70_reset_and_hazards.md R160 to R169).
The Loader is outside the block (00_scope.md R6); it is modelled because it fixes the initial memory. -/

namespace Sys2Proof.Machine.Loader

/-! ### Image load and start (R160, R161, R169) -/

/-- Stores the words at consecutive addresses from `a` on. -/
def storeFrom : Nat → List Word → Memory → Memory
  | _, [], m => m
  | a, v :: rest, m => storeFrom (a + 1) rest (m.write a v)

/-- The state a run starts in (10_state.md R39): the reset state with image word `v[a]` at address `a`
(R160 steps 1 to 3, R161). -/
def startState (image : List Word) : State :=
  { State.reset with mem := storeFrom 0 image State.reset.mem }

/-- The three fatal errors of loading (R164). They are no faults of the core (60_exceptions.md R144). -/
inductive LoadError where
  /-- A line does not match the declaration syntax. -/
  | format
  /-- An address is out of order or repeated. -/
  | sequencing
  /-- The image exceeds the memory capacity. -/
  | capacity
deriving DecidableEq, Repr

/-- What loading yields: the image words, or the error that starts no run (R164). -/
inductive LoadResult where
  | loaded (image : List Word)
  | failed (error : LoadError)
deriving DecidableEq, Repr

/-- The host's image load and start (R169): an image of at most 8192 words starts a run, a longer one is
a load-capacity error and starts none (R161, R164, R166). -/
def start (image : List Word) : Option State :=
  if image.length ≤ Config.memWords then some (startState image) else none

/-! ### The program image (R162 to R166) -/

/-- A significant line of the image: its address and its word. -/
structure ImageLine where
  address : Nat
  word : Word
deriving DecidableEq, Repr

/-- The rest of the text after the given words, if it begins with them. -/
def expect : List Char → List Char → Option (List Char)
  | [], text => some text
  | c :: cs, d :: text => if c = d then expect cs text else none
  | _ :: _, [] => none

/-- The value of a decimal digit. -/
def digit (c : Char) : Option Nat :=
  if 48 ≤ c.toNat ∧ c.toNat ≤ 57 then some (c.toNat - 48) else none

/-- Reads decimal digits after the value `n` read so far. -/
def moreDigits (n : Nat) : List Char → Nat × List Char
  | [] => (n, [])
  | c :: text =>
    match digit c with
    | some d => moreDigits (10 * n + d) text
    | none => (n, c :: text)

/-- Reads a decimal number of at least one digit. -/
def decimal : List Char → Option (Nat × List Char)
  | [] => none
  | c :: text => (digit c).map fun d => moreDigits d text

/-- Reads `k` binary characters, most significant first: the first is the highest bit (R163). -/
def binary : Nat → Nat → List Char → Option (Nat × List Char)
  | 0, n, text => some (n, text)
  | _ + 1, _, [] => none
  | k + 1, n, c :: text =>
    if c = '0' then binary k (2 * n) text
    else if c = '1' then binary k (2 * n + 1) text
    else none

/-- Reads one line of the form `ram[<decimal address>] = 16'b<16 binary characters>;`, and ignores what
follows the `;` (R162). -/
def parseLine (line : String) : Option ImageLine :=
  (expect "ram[".toList line.toList).bind fun text =>
  (decimal text).bind fun (address, text) =>
  (expect "] = 16'b".toList text).bind fun text =>
  (binary 16 0 text).bind fun (value, text) =>
  (expect ";".toList text).map fun _ =>
  { address := address, word := BitVec.ofNat 16 value }

/-- Checks the lines in order, the next one due at address `n`: a line that has no declaration form is a
format error, an address or a count of lines beyond 8191 a capacity error (R166), and any other
address than `n` a sequencing error (R165). The first error found aborts (log entry 8). -/
def checkLines : Nat → List (Option ImageLine) → LoadResult
  | _, [] => .loaded []
  | _, none :: _ => .failed .format
  | n, some line :: rest =>
    if line.address ≥ Config.memWords ∨ n ≥ Config.memWords then .failed .capacity
    else if line.address ≠ n then .failed .sequencing
    else
      match checkLines (n + 1) rest with
      | .loaded image => .loaded (line.word :: image)
      | .failed error => .failed error

/-- Loads a program image. `imageLineFilter` is the open parameter `IMAGE_LINE_FILTER`: true for a line
that must have the declaration form (R162, 92_eei_decisions.md D17). -/
def load (imageLineFilter : String → Bool) (lines : List String) : LoadResult :=
  checkLines 0 ((lines.filter imageLineFilter).map parseLine)

/-- Reset with a program image (R160): the state of the first step, or no run where loading fails
(R164). -/
def boot (imageLineFilter : String → Bool) (lines : List String) : Option State :=
  match load imageLineFilter lines with
  | .loaded image => start image
  | .failed _ => none

end Sys2Proof.Machine.Loader
end

