-- ==== Sys2Proof/Machine/Observation.lean ====
section
/-! DEFINITION. What the host observes of the core (spec 10_state.md R37, 70_reset_and_hazards.md R169,
R171), and the numeric encodings of the status and the fault cause (R28, 60_exceptions.md R140). -/

namespace Sys2Proof.Machine

/-- RUNNING = 0, HALTED = 1, FAULTED = 2 (10_state.md R28). -/
def Status.code : Status → Nat
  | .running => 0
  | .halted => 1
  | .faulted _ => 2

/-- The code of a fault cause, 3 bits; code 0 is not used (60_exceptions.md R140). -/
def FaultCause.code : FaultCause → BitVec 3
  | .fetchOutOfRange => 1
  | .loadOutOfRange => 2
  | .storeOutOfRange => 3
  | .jumpTargetOutOfRange => 4

/-- The fault record, which holds a value only while FAULTED (10_state.md R30). -/
def Status.faultRecord : Status → Option FaultRecord
  | .running => none
  | .halted => none
  | .faulted record => some record

/-- The observable state (10_state.md R37). The memory list stands for `M[0..8191]`: in its canonical
form it is the same list exactly when every word is the same. -/
structure Observation where
  status : Nat
  pc : Int
  regs : Vector Word 8
  mem : Memory
  fault : Option FaultRecord
deriving DecidableEq, Repr

/-- The observed `pc`: the parameter `HALT_SENTINEL` when HALTED, else `pc` (10_state.md R32, R37). -/
def State.observedPc (haltSentinel : Int) (s : State) : Int :=
  match s.status with
  | .running => (s.pc : Int)
  | .halted => haltSentinel
  | .faulted _ => (s.pc : Int)

/-- The observation of a state under a given `HALT_SENTINEL`. -/
def State.observeWith (haltSentinel : Int) (s : State) : Observation :=
  { status := s.status.code
    pc := s.observedPc haltSentinel
    regs := s.regs
    mem := s.mem
    fault := s.status.faultRecord }

/-- The observation under the default `HALT_SENTINEL`, -1 (10_state.md R32). -/
def State.observe (s : State) : Observation := s.observeWith Config.defaultHaltSentinel

/-- What the final-state report holds: the sentinel, the registers and the first 128 memory words
(10_state.md R37, 20_memory.md R50). Its text format is out of scope (00_scope.md R6). -/
structure Report where
  pc : Int
  regs : Vector Word 8
  firstWords : List Word
deriving DecidableEq, Repr

/-- The report is produced after HALTED and in no other status (70_reset_and_hazards.md R171,
60_exceptions.md R143). -/
def State.report (haltSentinel : Int) (s : State) : Option Report :=
  match s.status with
  | .running => none
  | .halted =>
    some { pc := haltSentinel, regs := s.regs, firstWords := (List.range 128).map s.memRead }
  | .faulted _ => none

end Sys2Proof.Machine
end

