-- ==== Sys2Proof/Safety.lean ====
section
/-! DEFINITION. The terms claims use: what an instruction leaves unchanged, the invariant of the core,
and runs (spec 40_execution_cycle.md R85 to R91). -/

namespace Sys2Proof.Machine

/-! ### Frames -/

/-- Every register reads as before. -/
def SameRegs (s t : State) : Prop := ∀ r, t.reg r = s.reg r

/-- Every register but `x[rd]` reads as before. -/
def SameRegsBut (rd : RegIndex) (s t : State) : Prop := ∀ r, r ≠ rd → t.reg r = s.reg r

/-- Every memory word reads as before. -/
def SameMem (s t : State) : Prop := ∀ a, t.memRead a = s.memRead a

/-- Every memory word but the one at `ea` reads as before. -/
def SameMemBut (ea : Nat) (s t : State) : Prop := ∀ a, a ≠ ea → t.memRead a = s.memRead a

/-- `t` is `s` with the fault taken and nothing else changed (60_exceptions.md R141). -/
def TookFault (cause : FaultCause) (value : Nat) (s t : State) : Prop :=
  t.status = .faulted { cause := cause, faultPc := s.pc, faultValue := value } ∧
    SameRegs s t ∧ SameMem s t ∧ t.pc = s.pc

/-- The register an instruction writes, if any (10_state.md R23, column "writes"). -/
def writtenRegister : Instr → Option RegIndex
  | .halt => none
  | .add rd _ _ => some rd
  | .addi rd _ _ => some rd
  | .sub rd _ _ => some rd
  | .subi rd _ _ => some rd
  | .lw rd _ _ => some rd
  | .sw _ _ _ => none
  | .slt rd _ _ => some rd
  | .jeq _ _ _ => none

/-- The registers an instruction reads in a state (10_state.md R23, column "reads"): `jeq` reads
`x[rd]` only when the branch is taken. -/
def readRegisters (s : State) : Instr → List RegIndex
  | .halt => []
  | .add _ rs1 rs2 => [rs1, rs2]
  | .addi _ rs1 _ => [rs1]
  | .sub _ rs1 rs2 => [rs1, rs2]
  | .subi _ rs1 _ => [rs1]
  | .lw _ rs1 _ => [rs1]
  | .sw rd rs1 _ => [rs1, rd]
  | .slt _ rs1 rs2 => [rs1, rs2]
  | .jeq rd rs1 rs2 => if s.reg rs1 = s.reg rs2 then [rs1, rs2, rd] else [rs1, rs2]

/-! ### The invariant of the core -/

/-- The fault record agrees with its cause and with `pc` (10_state.md R30, 60_exceptions.md R140):
a fetch fault is at 8192, and every other one at a fetched address with a value above 8191 and within
what its operands can form. -/
def FaultRecord.Consistent (record : FaultRecord) (pc : Nat) : Prop :=
  record.faultPc = pc ∧
    match record.cause with
    | .fetchOutOfRange => pc = 8192 ∧ record.faultValue = 8192
    | .loadOutOfRange => pc ≤ 8191 ∧ 8192 ≤ record.faultValue ∧ record.faultValue ≤ 65550
    | .storeOutOfRange => pc ≤ 8191 ∧ 8192 ≤ record.faultValue ∧ record.faultValue ≤ 65550
    | .jumpTargetOutOfRange => pc ≤ 8191 ∧ 8192 ≤ record.faultValue ∧ record.faultValue ≤ 65535

/-- `pc` is at most 8192 while RUNNING (10_state.md R24), at the `halt` word while HALTED, and in
agreement with the fault record while FAULTED. -/
def PcAgrees (s : State) : Prop :=
  match s.status with
  | .running => s.pc ≤ 8192
  | .halted => s.pc ≤ 8191
  | .faulted record => record.Consistent s.pc

/-- The invariant: the memory is in its canonical form and `pc` agrees with the status. -/
def Inv (s : State) : Prop := s.mem.wf ∧ PcAgrees s

/-! ### Runs (R88 to R91) -/

/-- `t` is reached from `s` by some number of steps. -/
inductive Reaches : State → State → Prop where
  | refl (s : State) : Reaches s s
  | tail {s t u : State} : Reaches s t → step t = .next u → Reaches s u

/-- Applies `step` while the status is RUNNING, at most `fuel` times. The answer is the first state whose
status is not RUNNING (R91); none means that the fuel ran out, which is no answer and never an end
state of the core (R89). -/
def runToEnd : Nat → State → Option State
  | 0, s => if s.status = .running then none else some s
  | fuel + 1, s =>
    if s.status = .running then
      match step s with
      | .next t => runToEnd fuel t
      | .fault _ => none
      | .refused _ => none
    else some s

end Sys2Proof.Machine
end

