-- ==== Sys2Proof/Certificates/Slice0/Obligations.lean ====
section
/-! DEFINITION. The statements for the provers, each about the machine and none about a program. A
statement that rests on a choice of the model, or on a decision or derivation the spec marks as its
own, says so and names it. -/

open Sys2Proof Sys2Proof.Machine

/-! ### Encoding -/

/-- 30_encoding.md section 1: the five fields stand at the bit positions of the field table. Rests on no
choice; basis derived because the rule's last sentence is marked derived. -/
def Obligations.FieldsStandAtTheirBitPositions : Prop :=
  ∀ (w : Word) (j : Nat),
    (j < 3 →
      (wordFields w).opcode.val.testBit j = w.getLsbD (13 + j) ∧
      (wordFields w).rd.val.testBit j = w.getLsbD (10 + j) ∧
      (wordFields w).rs1.val.testBit j = w.getLsbD (7 + j) ∧
      (wordFields w).rs2.val.testBit j = w.getLsbD (4 + j)) ∧
    (j < 4 → (wordFields w).imm.val.testBit j = w.getLsbD j)

/-- 30_encoding.md section 1: the fields do not overlap and cover the word, so a word and its field tuple
determine each other. -/
def Obligations.WordAndFieldTupleDetermineEachOther : Prop :=
  ∀ (w : Word) (f : Fields), wordFields w = f ↔ packFields f = w

/-- 30_encoding.md section 2: every word decodes to an instruction whose immediate is in 0..15. -/
def Obligations.DecodedInstructionIsWellFormed : Prop :=
  ∀ w : Word, (decode w).WellFormed

/-- Decode and encode agree: every well-formed instruction has a word, and that word decodes to it, with
every operand at every value the encoding admits. -/
def Obligations.EncodedInstructionDecodesToItself : Prop :=
  ∀ i : Instr, i.WellFormed → ∃ w, encode i = some w ∧ decode w = i

/-- 30_encoding.md section 5 (decision D12): an immediate above 15 is refused, not reduced, and no other
instruction is refused. -/
def Obligations.EncoderRefusesExactlyWideImmediates : Prop :=
  ∀ (rd rs1 rs2 : RegIndex) (imm : Nat),
    (encode (.addi rd rs1 imm) = none ↔ 15 < imm) ∧
    (encode (.subi rd rs1 imm) = none ↔ 15 < imm) ∧
    (encode (.lw rd rs1 imm) = none ↔ 15 < imm) ∧
    (encode (.sw rd rs1 imm) = none ↔ 15 < imm) ∧
    encode .halt ≠ none ∧ encode (.add rd rs1 rs2) ≠ none ∧ encode (.sub rd rs1 rs2) ≠ none ∧
    encode (.slt rd rs1 rs2) ≠ none ∧ encode (.jeq rd rs1 rs2) ≠ none

/-- 30_encoding.md section 3 (the split of the 65536 words, marked derived): 0x0000 is `halt`, 0x0001 to
0x1FFF are `add`, and each further block of 8192 words is one instruction. -/
def Obligations.WordsSplitAmongInstructionsByRange : Prop :=
  ∀ w : Word,
    (decode w).mnemonic =
      if w.toNat = 0 then "halt"
      else if w.toNat ≤ 0x1FFF then "add"
      else if w.toNat ≤ 0x3FFF then "addi"
      else if w.toNat ≤ 0x5FFF then "sub"
      else if w.toNat ≤ 0x7FFF then "subi"
      else if w.toNat ≤ 0x9FFF then "lw"
      else if w.toNat ≤ 0xBFFF then "sw"
      else if w.toNat ≤ 0xDFFF then "slt"
      else "jeq"

/-- 30_encoding.md section 6 (marked derived; decisions D1, D2): every word matches exactly one row of the
opcode table, the row of the instruction it decodes to, and the priorities select the same row. -/
def Obligations.OpcodeTableSelectsTheDecodedInstruction : Prop :=
  ∀ w : Word,
    (opcodeTable.filter (fun row => rowMatches row w)).map (·.mnemonic) = [(decode w).mnemonic] ∧
    (winningRow w).map (·.mnemonic) = some (decode w).mnemonic

/-- 30_encoding.md section 3 (decision D2): two nonzero words that agree in every field their instruction
uses decode to the same instruction, whatever their ignored bits. Opcodes 0, 2, 6 and 7 ignore `imm`,
the others ignore `rs2`. -/
def Obligations.IgnoredBitsDoNotChangeTheInstruction : Prop :=
  ∀ v w : Word, v ≠ 0 → w ≠ 0 →
    (wordFields v).opcode = (wordFields w).opcode →
    (wordFields v).rd = (wordFields w).rd →
    (wordFields v).rs1 = (wordFields w).rs1 →
    ((wordFields v).opcode ∈ [0, 2, 6, 7] → (wordFields v).rs2 = (wordFields w).rs2) →
    ((wordFields v).opcode ∈ [1, 3, 4, 5] → (wordFields v).imm = (wordFields w).imm) →
    decode v = decode w

/-- 30_encoding.md section 3 (marked derived): `add $0, $0, $0` exists only in the words 0x0001 to
0x000F. -/
def Obligations.AddOfRegisterZeroHasFifteenWords : Prop :=
  ∀ w : Word, decode w = .add 0 0 0 ↔ 1 ≤ w.toNat ∧ w.toNat ≤ 15

/-- Words written out from the encodings of 30_encoding.md (95_test_vectors.md V1 to V13) decode to the
instructions they stand for. -/
def Obligations.WrittenOutWordsDecode : Prop :=
  decode 0x0000 = .halt ∧ decode 0x0001 = .add 0 0 0 ∧ decode 0x0CA0 = .add 3 1 2 ∧
  decode 0x2475 = .addi 1 0 5 ∧ decode 0x4CA0 = .sub 3 1 2 ∧ decode 0x6481 = .subi 1 1 1 ∧
  decode 0x8883 = .lw 2 1 3 ∧ decode 0xA883 = .sw 2 1 3 ∧ decode 0xCCA0 = .slt 3 1 2 ∧
  decode 0xECA0 = .jeq 3 1 2

/-! ### Arithmetic -/

/-- 41_arithmetic.md R100, encoding and effect: `add` writes the exact sum modulo 65536, advances `pc` by 1
and changes nothing else; it never faults. The destination may be any register, the sources among
them. -/
def Obligations.AddWritesWrappedSum : Prop :=
  (∀ w : Word, w ≠ 0 → (wordFields w).opcode = 0 →
    decode w = .add (wordFields w).rd (wordFields w).rs1 (wordFields w).rs2) ∧
  ∀ (rd rs1 rs2 : RegIndex) (s : State), s.status = .running →
    ∃ t, exec (.add rd rs1 rs2) s = .next t ∧
      (t.reg rd).toNat = ((s.reg rs1).toNat + (s.reg rs2).toNat) % 65536 ∧
      SameRegsBut rd s t ∧ SameMem s t ∧ t.pc = s.pc + 1 ∧ t.status = .running

/-- 41_arithmetic.md R101, encoding and effect: `addi` adds an unsigned immediate 0..15. -/
def Obligations.AddiWritesWrappedSum : Prop :=
  (∀ w : Word, (wordFields w).opcode = 1 →
    decode w = .addi (wordFields w).rd (wordFields w).rs1 (wordFields w).imm.val) ∧
  ∀ (rd rs1 : RegIndex) (imm : Nat) (s : State), imm ≤ 15 → s.status = .running →
    ∃ t, exec (.addi rd rs1 imm) s = .next t ∧
      (t.reg rd).toNat = ((s.reg rs1).toNat + imm) % 65536 ∧
      SameRegsBut rd s t ∧ SameMem s t ∧ t.pc = s.pc + 1 ∧ t.status = .running

/-- 41_arithmetic.md R102, encoding and effect: `sub` writes the remainder in 0..65535 of the exact integer
difference. -/
def Obligations.SubWritesWrappedDifference : Prop :=
  (∀ w : Word, (wordFields w).opcode = 2 →
    decode w = .sub (wordFields w).rd (wordFields w).rs1 (wordFields w).rs2) ∧
  ∀ (rd rs1 rs2 : RegIndex) (s : State), s.status = .running →
    ∃ t, exec (.sub rd rs1 rs2) s = .next t ∧
      ((t.reg rd).toNat : Int) =
        (((s.reg rs1).toNat : Int) - ((s.reg rs2).toNat : Int)) % 65536 ∧
      SameRegsBut rd s t ∧ SameMem s t ∧ t.pc = s.pc + 1 ∧ t.status = .running

/-- 41_arithmetic.md R103, encoding and effect: `subi` subtracts an unsigned immediate 0..15. -/
def Obligations.SubiWritesWrappedDifference : Prop :=
  (∀ w : Word, (wordFields w).opcode = 3 →
    decode w = .subi (wordFields w).rd (wordFields w).rs1 (wordFields w).imm.val) ∧
  ∀ (rd rs1 : RegIndex) (imm : Nat) (s : State), imm ≤ 15 → s.status = .running →
    ∃ t, exec (.subi rd rs1 imm) s = .next t ∧
      ((t.reg rd).toNat : Int) = (((s.reg rs1).toNat : Int) - (imm : Int)) % 65536 ∧
      SameRegsBut rd s t ∧ SameMem s t ∧ t.pc = s.pc + 1 ∧ t.status = .running

/-- 41_arithmetic.md section on the arithmetic laws (its sentence marked derived): the four results are also
the two's-complement signed sums and differences, wrapped to 16 bits. -/
def Obligations.SignedReadingGetsTheSameBits : Prop :=
  ∀ (rd rs1 rs2 : RegIndex) (imm : Nat) (s : State), s.status = .running → imm ≤ 15 →
    (∃ t, exec (.add rd rs1 rs2) s = .next t ∧
      (t.reg rd).toInt = ((s.reg rs1).toInt + (s.reg rs2).toInt).bmod 65536) ∧
    (∃ t, exec (.addi rd rs1 imm) s = .next t ∧
      (t.reg rd).toInt = ((s.reg rs1).toInt + (imm : Int)).bmod 65536) ∧
    (∃ t, exec (.sub rd rs1 rs2) s = .next t ∧
      (t.reg rd).toInt = ((s.reg rs1).toInt - (s.reg rs2).toInt).bmod 65536) ∧
    (∃ t, exec (.subi rd rs1 imm) s = .next t ∧
      (t.reg rd).toInt = ((s.reg rs1).toInt - (imm : Int)).bmod 65536)

/-- 10_state.md R21: every register, `x[0]` among them, reads back what was written and leaves the others
alone; an instruction that names `x[0]` as destination writes it. -/
def Obligations.RegisterZeroIsAnOrdinaryRegister : Prop :=
  (∀ (s : State) (r q : RegIndex) (v : Word),
    (s.setReg r v).reg q = if q = r then v else s.reg q) ∧
  ∀ (s : State) (imm : Nat), s.status = .running → imm ≤ 15 →
    ∃ t, exec (.addi 0 0 imm) s = .next t ∧
      (t.reg 0).toNat = ((s.reg 0).toNat + imm) % 65536

/-! ### Compare -/

/-- 43_compare.md (the unsigned reading is marked derived there): `slt` writes exactly 1 or 0 by an
unsigned comparison. -/
def Obligations.SltWritesUnsignedComparison : Prop :=
  (∀ w : Word, (wordFields w).opcode = 6 →
    decode w = .slt (wordFields w).rd (wordFields w).rs1 (wordFields w).rs2) ∧
  ∀ (rd rs1 rs2 : RegIndex) (s : State), s.status = .running →
    ∃ t, exec (.slt rd rs1 rs2) s = .next t ∧
      (t.reg rd).toNat = (if (s.reg rs1).toNat < (s.reg rs2).toNat then 1 else 0) ∧
      SameRegsBut rd s t ∧ SameMem s t ∧ t.pc = s.pc + 1 ∧ t.status = .running

/-! ### Load and store -/

/-- 42_memory_access.md, encoding and effect (decision D3 for the range): every word of opcode 100 is `lw`
of its `rd`, `rs1` and `imm`, and `lw` of an address in 0..8191 loads that word. -/
def Obligations.LwInRangeLoadsTheWord : Prop :=
  (∀ w : Word, (wordFields w).opcode = 4 →
    decode w = .lw (wordFields w).rd (wordFields w).rs1 (wordFields w).imm.val) ∧
  ∀ (rd rs1 : RegIndex) (imm : Nat) (s : State), imm ≤ 15 → s.status = .running →
    (s.reg rs1).toNat + imm ≤ 8191 →
    ∃ t, exec (.lw rd rs1 imm) s = .next t ∧
      t.reg rd = s.memRead ((s.reg rs1).toNat + imm) ∧
      SameRegsBut rd s t ∧ SameMem s t ∧ t.pc = s.pc + 1 ∧ t.status = .running

/-- 42_memory_access.md, 60_exceptions.md (decisions D3, D6): `lw` of an address above 8191 takes
LOAD_OUT_OF_RANGE and changes nothing else; the address is not wrapped. -/
def Obligations.LwOutOfRangeTakesLoadFault : Prop :=
  ∀ (rd rs1 : RegIndex) (imm : Nat) (s : State), imm ≤ 15 → s.status = .running →
    8191 < (s.reg rs1).toNat + imm →
    ∃ t, exec (.lw rd rs1 imm) s = .next t ∧
      TookFault .loadOutOfRange ((s.reg rs1).toNat + imm) s t

/-- 42_memory_access.md, encoding and effect (decision D3 for the range): every word of opcode 101 is `sw`
of its `rd`, `rs1` and `imm`, and `sw` to an address in 0..8191 stores `x[rd]` there and changes no
other word and no register. The address is the model's own, which is `x[rs1] + imm`. The canonical
memory it starts from is the model's choice, log entry 1. -/
def Obligations.SwInRangeStoresTheWord : Prop :=
  (∀ w : Word, (wordFields w).opcode = 5 →
    decode w = .sw (wordFields w).rd (wordFields w).rs1 (wordFields w).imm.val) ∧
  ∀ (rd rs1 : RegIndex) (imm : Nat) (s : State) (ea : Nat), imm ≤ 15 → s.status = .running →
    s.mem.wf → s.effectiveAddress rs1 imm = ea → ea ≤ 8191 →
    ea = (s.reg rs1).toNat + imm ∧
    ∃ t, exec (.sw rd rs1 imm) s = .next t ∧ t.memRead ea = s.reg rd ∧
      SameMemBut ea s t ∧ SameRegs s t ∧ t.pc = s.pc + 1 ∧ t.status = .running

/-- 42_memory_access.md, 60_exceptions.md (decisions D3, D6): `sw` to an address above 8191 takes
STORE_OUT_OF_RANGE and stores nothing. -/
def Obligations.SwOutOfRangeTakesStoreFault : Prop :=
  ∀ (rd rs1 : RegIndex) (imm : Nat) (s : State), imm ≤ 15 → s.status = .running →
    8191 < (s.reg rs1).toNat + imm →
    ∃ t, exec (.sw rd rs1 imm) s = .next t ∧
      TookFault .storeOutOfRange ((s.reg rs1).toNat + imm) s t

/-- 42_memory_access.md (the round trip, marked derived): after a `sw`, a `lw` by any base and immediate
that form the same effective address loads the value stored. The canonical memory it starts from is the
model's choice, log entry 1. -/
def Obligations.StoreThenLoadReturnsTheValue : Prop :=
  ∀ (rd rs1 qd qs : RegIndex) (imm jmm : Nat) (s : State), imm ≤ 15 → jmm ≤ 15 →
    s.status = .running → s.mem.wf → s.effectiveAddress rs1 imm ≤ 8191 →
    s.effectiveAddress qs jmm = s.effectiveAddress rs1 imm →
    ∃ t u, exec (.sw rd rs1 imm) s = .next t ∧ exec (.lw qd qs jmm) t = .next u ∧
      u.reg qd = s.reg rd ∧ u.status = .running ∧ u.pc = s.pc + 2

/-! ### Control transfer and halt -/

/-- 44_control.md: `jeq` of unequal registers advances `pc` by exactly 1 and makes no check of `x[rd]`. -/
def Obligations.JeqOfUnequalRegistersAdvances : Prop :=
  ∀ (rd rs1 rs2 : RegIndex) (s : State), s.status = .running → s.reg rs1 ≠ s.reg rs2 →
    ∃ t, exec (.jeq rd rs1 rs2) s = .next t ∧ t.pc = s.pc + 1 ∧
      SameRegs s t ∧ SameMem s t ∧ t.status = .running

/-- 44_control.md, encoding and effect (decision D4 for the range): every word of opcode 111 is `jeq` of its
`rd`, `rs1` and `rs2`, and `jeq` of equal registers, one register compared with itself among them,
jumps to the absolute target in `x[rd]` where that is in 0..8191. -/
def Obligations.JeqOfEqualRegistersJumps : Prop :=
  (∀ w : Word, (wordFields w).opcode = 7 →
    decode w = .jeq (wordFields w).rd (wordFields w).rs1 (wordFields w).rs2) ∧
  ∀ (rd rs1 rs2 : RegIndex) (s : State), s.status = .running → s.reg rs1 = s.reg rs2 →
    (s.reg rd).toNat ≤ 8191 →
    ∃ t, exec (.jeq rd rs1 rs2) s = .next t ∧ t.pc = (s.reg rd).toNat ∧
      SameRegs s t ∧ SameMem s t ∧ t.status = .running

/-- 44_control.md, 60_exceptions.md (decisions D4, D6): a taken `jeq` to a target above 8191 takes
JUMP_TARGET_OUT_OF_RANGE. -/
def Obligations.JeqTakenOutOfRangeTakesJumpFault : Prop :=
  ∀ (rd rs1 rs2 : RegIndex) (s : State), s.status = .running → s.reg rs1 = s.reg rs2 →
    8191 < (s.reg rd).toNat →
    ∃ t, exec (.jeq rd rs1 rs2) s = .next t ∧
      TookFault .jumpTargetOutOfRange (s.reg rd).toNat s t

/-- 45_halt.md (decisions D1, D8): the word 0x0000 and no other is `halt`; it enters HALTED, changes no
register and no memory word, and `pc` is then observed as the sentinel, whichever it is. That the
model's own `pc` field keeps the address of the `halt` word is the model's choice, log entry 7. -/
def Obligations.HaltEntersHaltedAndChangesNothingElse : Prop :=
  (∀ w : Word, decode w = .halt ↔ w = 0) ∧
  ∀ s : State, s.status = .running →
    ∃ t, exec .halt s = .next t ∧ t.status = .halted ∧ SameRegs s t ∧ SameMem s t ∧
      t.pc = s.pc ∧ ∀ haltSentinel, t.observedPc haltSentinel = haltSentinel

/-! ### The step -/

/-- 40_execution_cycle.md R80: a step is taken only when the status is RUNNING, and it starts by fetching
the word at `pc`; the fetched word is decoded and the instruction it decodes to is run on the same
state, with nothing added around it. -/
def Obligations.StepRunsTheDecodedInstruction : Prop :=
  (∀ (s : State) (i : Instr), s.status = .running → s.pc ≤ 8191 →
    decode (s.memRead s.pc) = i → i.WellFormed → step s = exec i s) ∧
  ∀ s t : State, step s = .next t → s.status = .running

/-- 40_execution_cycle.md section 1 (decision D5): with `pc` above 8191 a step takes FETCH_OUT_OF_RANGE,
whatever the memory holds, and changes nothing else. -/
def Obligations.FetchOutOfRangeTakesFetchFault : Prop :=
  ∀ s : State, s.status = .running → 8191 < s.pc →
    ∃ t, step s = .next t ∧ TookFault .fetchOutOfRange s.pc s t

/-- 10_state.md section 4 (decision D15): HALTED and FAULTED have no step. That the model says so by a
named stop is its own choice, log entry 4. -/
def Obligations.NoStepFromHaltedOrFaulted : Prop :=
  ∀ s : State,
    (s.status = .halted → step s = .fault .noStepFromHalted) ∧
    ∀ record, s.status = .faulted record → step s = .fault .noStepFromFaulted

/-- 30_encoding.md R68: no encoding is illegal. Whatever word stands at `pc`, it decodes to a well-formed
instruction, and a RUNNING state steps to a next state that runs it. -/
def Obligations.EveryWordExecutes : Prop :=
  ∀ (s : State) (w : Word), s.status = .running → s.pc ≤ 8191 → s.memRead s.pc = w →
    (decode w).WellFormed ∧ ∃ t, step s = .next t ∧ exec (decode w) s = .next t

/-- 40_execution_cycle.md section 2: a RUNNING state always has a next state, so a run stops nowhere but in
HALTED or FAULTED. -/
def Obligations.RunningStateAlwaysHasAStep : Prop :=
  ∀ s : State, s.status = .running → ∃ t, step s = .next t

/-- 40_execution_cycle.md section 1 (decision D6), with the tables of 10_state.md section 1: the three
outcomes of a step. Either RUNNING, with only the written register of the fetched instruction changed,
or only the word at the effective address of a fetched `sw`; or HALTED, or FAULTED, with registers and
memory unchanged. -/
def Obligations.StepHasOneOfThreeOutcomes : Prop :=
  ∀ s t : State, step s = .next t →
    (t.status = .running ∧ s.pc ≤ 8191 ∧
      ((SameMem s t ∧ ∀ r, some r ≠ writtenRegister (decode (s.memRead s.pc)) →
          t.reg r = s.reg r) ∨
        ∃ rd rs1 imm, decode (s.memRead s.pc) = .sw rd rs1 imm ∧ SameRegs s t ∧
          SameMemBut (s.effectiveAddress rs1 imm) s t)) ∨
    (t.status = .halted ∧ SameRegs s t ∧ SameMem s t) ∨
    (∃ record, t.status = .faulted record ∧ SameRegs s t ∧ SameMem s t ∧ t.pc = s.pc)

/-- 10_state.md section 2 (decision D5): a step that stays RUNNING sets `pc` to `x[rd]` for a `jeq` of equal
registers, and to `pc + 1`, not reduced, for everything else. -/
def Obligations.StepSetsPcToSuccessorOrJumpTarget : Prop :=
  ∀ s t : State, step s = .next t → t.status = .running →
    (∃ rd rs1 rs2, decode (s.memRead s.pc) = .jeq rd rs1 rs2 ∧ s.reg rs1 = s.reg rs2 ∧
      t.pc = (s.reg rd).toNat) ∨
    ((∀ rd rs1 rs2, decode (s.memRead s.pc) = .jeq rd rs1 rs2 → s.reg rs1 ≠ s.reg rs2) ∧
      t.pc = s.pc + 1)

/-- 45_halt.md and 10_state.md section 4: a step enters HALTED exactly when it fetches the zero word; no
`jeq` and no fault does. -/
def Obligations.OnlyTheZeroWordHalts : Prop :=
  ∀ s t : State, step s = .next t →
    (t.status = .halted ↔ s.pc ≤ 8191 ∧ s.memRead s.pc = 0)

/-- 60_exceptions.md section 1 (decisions D3, D4, D5, D7): a step faults only under the condition of its cause, with
the `pc` of the step and the value the table gives. -/
def Obligations.StepFaultsOnlyUnderItsCauseCondition : Prop :=
  ∀ (s t : State) (record : FaultRecord), step s = .next t → t.status = .faulted record →
    record.faultPc = s.pc ∧
    match record.cause with
    | .fetchOutOfRange => 8191 < s.pc ∧ record.faultValue = s.pc
    | .loadOutOfRange => s.pc ≤ 8191 ∧ ∃ rd rs1 imm, decode (s.memRead s.pc) = .lw rd rs1 imm ∧
        record.faultValue = (s.reg rs1).toNat + imm ∧ 8191 < record.faultValue
    | .storeOutOfRange => s.pc ≤ 8191 ∧ ∃ rd rs1 imm, decode (s.memRead s.pc) = .sw rd rs1 imm ∧
        record.faultValue = (s.reg rs1).toNat + imm ∧ 8191 < record.faultValue
    | .jumpTargetOutOfRange => s.pc ≤ 8191 ∧ ∃ rd rs1 rs2,
        decode (s.memRead s.pc) = .jeq rd rs1 rs2 ∧ s.reg rs1 = s.reg rs2 ∧
        record.faultValue = (s.reg rd).toNat ∧ 8191 < record.faultValue

/-- 10_state.md R23: which instruction reads and writes which register. Two RUNNING states that agree in
`pc`, memory and the registers the instruction reads go to states that agree in `pc`, status, memory
and, unless the step faulted, the written register; every other register keeps its own value. -/
def Obligations.InstructionsReadAndWriteTheRegistersOfTheTable : Prop :=
  ∀ (i : Instr) (s u : State), s.status = .running → u.status = .running →
    u.pc = s.pc → u.mem = s.mem → (∀ r ∈ readRegisters s i, u.reg r = s.reg r) →
    ∃ t v, exec i s = .next t ∧ exec i u = .next v ∧
      v.pc = t.pc ∧ v.status = t.status ∧ v.mem = t.mem ∧
      (∀ r, writtenRegister i = some r → t.status = .running → v.reg r = t.reg r) ∧
      ∀ r, writtenRegister i ≠ some r → t.reg r = s.reg r ∧ v.reg r = u.reg r

/-- 10_state.md section 4 (decision D11): no instruction reads the status or the fault record. Two states
that differ only there go to states with the same registers, memory and `pc`. That `exec` answers a next
state from a HALTED or FAULTED state too, where no step calls it, is the model's choice, log entry 10. -/
def Obligations.InstructionsDoNotReadTheStatus : Prop :=
  ∀ (i : Instr) (s : State) (status : Status),
    ∃ t u, exec i s = .next t ∧ exec i { s with status := status } = .next u ∧
      u.regs = t.regs ∧ u.mem = t.mem ∧ u.pc = t.pc

/-- 20_memory.md section 7 (coherent fetch, marked derived): a `sw` to the next address is seen by the very
next step, which runs the word just stored. The canonical memory it starts from is the model's choice,
log entry 1. -/
def Obligations.StoreToNextAddressIsFetchedNext : Prop :=
  ∀ (s : State) (rd rs1 : RegIndex) (imm : Nat), s.status = .running → s.mem.wf →
    s.pc + 1 ≤ 8191 → decode (s.memRead s.pc) = .sw rd rs1 imm →
    s.effectiveAddress rs1 imm = s.pc + 1 →
    ∃ t, step s = .next t ∧ t.pc = s.pc + 1 ∧ step t = exec (decode (s.reg rd)) t

/-- The word the model places for the host (log entry 2) is the one the next step fetches and runs, and
nothing else is changed by placing it. The canonical memory it starts from is log entry 1. -/
def Obligations.PlacedFetchWordIsRunByTheNextStep : Prop :=
  ∀ (s : State) (w : Nat), s.status = .running → s.mem.wf → s.pc ≤ 8191 → w < 65536 →
    step (s.withFetchWord 16 w) = exec (decode (BitVec.ofNat 16 w)) (s.withFetchWord 16 w) ∧
    SameRegs s (s.withFetchWord 16 w) ∧ SameMemBut s.pc s (s.withFetchWord 16 w) ∧
    (s.withFetchWord 16 w).pc = s.pc ∧ (s.withFetchWord 16 w).status = .running

/-! ### Memory -/

/-- 20_memory.md section 7 (a read returns the most recent write): after any sequence of writes in
0..8191, an address reads the last value written to it, or what it read before where none was. The
canonical memory it starts from is the model's choice, log entry 1. -/
def Obligations.ReadReturnsTheMostRecentWrite : Prop :=
  ∀ (writes : List (Nat × Word)) (s : State) (a : Nat), s.mem.wf → (∀ c ∈ writes, c.1 ≤ 8191) →
    (writes.foldl (fun t c => t.memWrite c.1 c.2) s).memRead a =
      match writes.reverse.find? (fun c => c.1 == a) with
      | some c => c.2
      | none => s.memRead a

/-- The canonical form of the memory list, the model's choice (log entry 1): two canonical memories that
read the same at every address are the same list. -/
def Obligations.CanonicalMemoriesWithEqualReadsAreEqual : Prop :=
  ∀ m n : Memory, m.wf → n.wf → (∀ a, a ≤ 8191 → Memory.read m a = Memory.read n a) → m = n

/-! ### The invariant and runs -/

/-- Every step keeps the invariant: the memory stays canonical (log entry 1), `pc` stays at most 8192 while
RUNNING, and a fault record agrees with its cause and with `pc` (10_state.md sections 2 and 4,
decisions D3, D4, D5, D7 and D9). -/
def Obligations.StepKeepsTheInvariant : Prop :=
  ∀ s t : State, Inv s → step s = .next t → Inv t

/-- The reset state meets the invariant. Its canonical memory is the model's choice, log entry 1, and so is
`State.reset` as the reset with the empty image, log entry 2 (10_state.md section 8 gives its values). -/
def Obligations.ResetMeetsTheInvariant : Prop := Inv State.reset

/-- Every state of a run, from whichever image, meets the invariant: `pc` at most 8192 while RUNNING and a
fault record that agrees with its cause and `pc` (10_state.md sections 2 and 4, decisions D3, D4, D5, D7
and D9), and a memory in canonical form, which is the model's choice, log entry 1. -/
def Obligations.EveryRunFromAnImageKeepsTheInvariant : Prop :=
  ∀ (image : List Word) (s t : State), Loader.start image = some s → Reaches s t → Inv t

/-- 40_execution_cycle.md section 2 (decision D15): the end of a run is the first state that is not RUNNING.
Applying `step` while RUNNING answers only such a state, reached by steps, and more fuel gives the same
answer; and it answers every such state with enough fuel, because a state that is not RUNNING has no
step. -/
def Obligations.EndOfRunIsReachedAndStable : Prop :=
  (∀ (fuel more : Nat) (s t : State), runToEnd fuel s = some t →
    t.status ≠ .running ∧ Reaches s t ∧ runToEnd (fuel + more) s = some t) ∧
  ∀ s t : State, Reaches s t → t.status ≠ .running → ∃ fuel, runToEnd fuel s = some t

/-! ### Reset and the program image -/

/-- 10_state.md R39: what every piece of state holds at the start of a run with an image. -/
def Obligations.ResetGivesEveryPieceItsValue : Prop :=
  ∀ image : List Word, image.length ≤ 8192 →
    ∃ s, Loader.start image = some s ∧
      (∀ r, s.reg r = 0) ∧
      (∀ (a : Nat) (h : a < image.length), s.memRead a = image[a]) ∧
      (∀ a, image.length ≤ a → a ≤ 8191 → s.memRead a = 0) ∧
      s.pc = 0 ∧ s.status = .running ∧ s.status.faultRecord = none

/-- The model's reset state is the start of a run with the empty image (log entry 2; decision D16), and its
first step halts; an image of more than 8192 words starts no run (70_reset_and_hazards.md section 2). -/
def Obligations.ResetStateIsTheEmptyImageStart : Prop :=
  Loader.start [] = some State.reset ∧
  (∃ t, step State.reset = .next t ∧ t.status = .halted) ∧
  ∀ image : List Word, 8192 < image.length → Loader.start image = none

/-- 70_reset_and_hazards.md R165: the significant lines must carry the addresses 0, 1, 2, ... in that
order, and a violation is a load-time error. Lines that do, and that fit the capacity, load their words
in order. -/
def Obligations.LoaderAcceptsExactlyContiguousAddresses : Prop :=
  ∀ lines : List Loader.ImageLine,
    (lines.map (·.address) = List.range lines.length ∧ lines.length ≤ 8192 →
      Loader.checkLines 0 (lines.map some) = .loaded (lines.map (·.word))) ∧
    (¬ (lines.map (·.address) = List.range lines.length ∧ lines.length ≤ 8192) →
      ∃ error, Loader.checkLines 0 (lines.map some) = .failed error)

/-- 70_reset_and_hazards.md section 2: after a load error no run starts, whichever line filter is used. -/
def Obligations.LoadErrorStartsNoRun : Prop :=
  ∀ (imageLineFilter : String → Bool) (lines : List String),
    (∃ error, Loader.load imageLineFilter lines = .failed error) ↔
      Loader.boot imageLineFilter lines = none

/-- 70_reset_and_hazards.md section 2 (from general knowledge there; decision D13): the 16 characters of the
literal are the bits of the word, the first being bit 15. -/
def Obligations.ImageLiteralIsReadMostSignificantBitFirst : Prop :=
  ∀ (w : Word) (text : List Char),
    Loader.binary 16 0
      ((List.range 16).map (fun k => if w.getLsbD (15 - k) then '1' else '0') ++ text) =
    some (w.toNat, text)

/-! ### Observation -/

/-- 10_state.md section 4 (decision D8): under any out-of-band sentinel, the observed `pc` is the sentinel
exactly in the halted state. The premise `Inv` bounds `pc` (log entry 11); its canonical memory is log
entry 1. -/
def Obligations.ObservedPcIsTheSentinelExactlyWhenHalted : Prop :=
  ∀ (haltSentinel : Int) (s : State), Config.OutOfBand haltSentinel → Inv s →
    (s.observedPc haltSentinel = haltSentinel ↔ s.status = .halted)

/-- 10_state.md sections 6 and 7: the observation shows the whole state of a run that has not halted, and
all but the `pc` field of a halted one; there is no hidden state. -/
def Obligations.ObservationShowsTheWholeState : Prop :=
  ∀ s t : State, s.observe = t.observe →
    s.regs = t.regs ∧ s.mem = t.mem ∧ s.status = t.status ∧
      (s.status ≠ .halted → s.pc = t.pc)
end

