-- ==== Sys2Proof/Laws/State.lean ====
section
/-! SUPPORT. What each update of the state does to each field, and to each read. -/

namespace Sys2Proof.Machine

/-! ### Fields -/

@[simp] theorem State.setReg_regs (s : State) (i : RegIndex) (v : Word) :
    (s.setReg i v).regs = s.regs.set i v := rfl
@[simp] theorem State.setReg_pc (s : State) (i : RegIndex) (v : Word) :
    (s.setReg i v).pc = s.pc := rfl
@[simp] theorem State.setReg_status (s : State) (i : RegIndex) (v : Word) :
    (s.setReg i v).status = s.status := rfl
@[simp] theorem State.setReg_mem (s : State) (i : RegIndex) (v : Word) :
    (s.setReg i v).mem = s.mem := rfl

@[simp] theorem State.memWrite_regs (s : State) (a : Nat) (v : Word) :
    (s.memWrite a v).regs = s.regs := rfl
@[simp] theorem State.memWrite_pc (s : State) (a : Nat) (v : Word) :
    (s.memWrite a v).pc = s.pc := rfl
@[simp] theorem State.memWrite_status (s : State) (a : Nat) (v : Word) :
    (s.memWrite a v).status = s.status := rfl
@[simp] theorem State.memWrite_mem (s : State) (a : Nat) (v : Word) :
    (s.memWrite a v).mem = Memory.write s.mem a v := rfl

@[simp] theorem State.setPc_regs (s : State) (t : Nat) : (s.setPc t).regs = s.regs := rfl
@[simp] theorem State.setPc_pc (s : State) (t : Nat) : (s.setPc t).pc = t := rfl
@[simp] theorem State.setPc_status (s : State) (t : Nat) : (s.setPc t).status = s.status := rfl
@[simp] theorem State.setPc_mem (s : State) (t : Nat) : (s.setPc t).mem = s.mem := rfl

@[simp] theorem State.advancePc_regs (s : State) : s.advancePc.regs = s.regs := rfl
@[simp] theorem State.advancePc_pc (s : State) : s.advancePc.pc = s.pc + 1 := rfl
@[simp] theorem State.advancePc_status (s : State) : s.advancePc.status = s.status := rfl
@[simp] theorem State.advancePc_mem (s : State) : s.advancePc.mem = s.mem := rfl

@[simp] theorem State.raiseFault_regs (s : State) (c : FaultCause) (v : Nat) :
    (s.raiseFault c v).regs = s.regs := rfl
@[simp] theorem State.raiseFault_pc (s : State) (c : FaultCause) (v : Nat) :
    (s.raiseFault c v).pc = s.pc := rfl
@[simp] theorem State.raiseFault_status (s : State) (c : FaultCause) (v : Nat) :
    (s.raiseFault c v).status =
      .faulted { cause := c, faultPc := s.pc, faultValue := v } := rfl
@[simp] theorem State.raiseFault_mem (s : State) (c : FaultCause) (v : Nat) :
    (s.raiseFault c v).mem = s.mem := rfl

@[simp] theorem State.enterHalted_regs (s : State) : s.enterHalted.regs = s.regs := rfl
@[simp] theorem State.enterHalted_pc (s : State) : s.enterHalted.pc = s.pc := rfl
@[simp] theorem State.enterHalted_status (s : State) : s.enterHalted.status = .halted := rfl
@[simp] theorem State.enterHalted_mem (s : State) : s.enterHalted.mem = s.mem := rfl

@[simp] theorem State.placeFetchWord_regs (s : State) (w : Word) :
    (s.placeFetchWord w).regs = s.regs := rfl
@[simp] theorem State.placeFetchWord_pc (s : State) (w : Word) :
    (s.placeFetchWord w).pc = s.pc := rfl
@[simp] theorem State.placeFetchWord_status (s : State) (w : Word) :
    (s.placeFetchWord w).status = s.status := rfl
@[simp] theorem State.placeFetchWord_mem (s : State) (w : Word) :
    (s.placeFetchWord w).mem = Memory.write s.mem s.pc w := rfl

/-! ### Register reads -/

@[simp] theorem State.reg_setReg_same (s : State) (i : RegIndex) (v : Word) :
    (s.setReg i v).reg i = v := by
  simp [State.reg]

theorem State.reg_setReg_other (s : State) {i j : RegIndex} (v : Word) (h : j ≠ i) :
    (s.setReg i v).reg j = s.reg j := by
  have hij : i.val ≠ j.val := fun e => h (Fin.ext e.symm)
  simp [State.reg, hij]

@[simp] theorem State.reg_memWrite (s : State) (a : Nat) (v : Word) (i : RegIndex) :
    (s.memWrite a v).reg i = s.reg i := rfl
@[simp] theorem State.reg_setPc (s : State) (t : Nat) (i : RegIndex) :
    (s.setPc t).reg i = s.reg i := rfl
@[simp] theorem State.reg_advancePc (s : State) (i : RegIndex) :
    s.advancePc.reg i = s.reg i := rfl
@[simp] theorem State.reg_raiseFault (s : State) (c : FaultCause) (v : Nat) (i : RegIndex) :
    (s.raiseFault c v).reg i = s.reg i := rfl
@[simp] theorem State.reg_enterHalted (s : State) (i : RegIndex) :
    s.enterHalted.reg i = s.reg i := rfl

/-! ### Memory reads -/

@[simp] theorem State.memRead_setReg (s : State) (i : RegIndex) (v : Word) (a : Nat) :
    (s.setReg i v).memRead a = s.memRead a := rfl
@[simp] theorem State.memRead_setPc (s : State) (t a : Nat) :
    (s.setPc t).memRead a = s.memRead a := rfl
@[simp] theorem State.memRead_advancePc (s : State) (a : Nat) :
    s.advancePc.memRead a = s.memRead a := rfl
@[simp] theorem State.memRead_raiseFault (s : State) (c : FaultCause) (v a : Nat) :
    (s.raiseFault c v).memRead a = s.memRead a := rfl
@[simp] theorem State.memRead_enterHalted (s : State) (a : Nat) :
    s.enterHalted.memRead a = s.memRead a := rfl

/-! ### Operands -/

theorem State.regValue_eq (s : State) (i : RegIndex) : s.regValue i = (s.reg i).toNat := rfl

/-- A register operand lies in 0..65535 (10_state.md R22). -/
theorem State.regValue_lt (s : State) (i : RegIndex) : s.regValue i < 65536 := (s.reg i).isLt

theorem State.effectiveAddress_eq (s : State) (rs1 : RegIndex) (imm : Nat) :
    s.effectiveAddress rs1 imm = (s.reg rs1).toNat + imm := rfl

theorem State.jumpTarget_eq (s : State) (rd : RegIndex) :
    s.jumpTarget rd = (s.reg rd).toNat := rfl

end Sys2Proof.Machine
end

