-- ==== Sys2Proof/Laws/Memory.lean ====
section
/-! SUPPORT. The laws of the memory list: a read after a write, and the canonical form kept by every
operation. -/

namespace Sys2Proof.Machine

/-! ### Reads after one operation -/

theorem Memory.read_of_forall_ne (m : Memory) (a : Nat) (h : ∀ c ∈ m, c.1 ≠ a) :
    Memory.read m a = Config.unlistedWord := by
  induction m with
  | nil => rfl
  | cons c rest ih =>
    have hc : c.1 ≠ a := h c (by simp)
    simp [Memory.read, hc, ih fun d hd => h d (by simp [hd])]

theorem Memory.read_insert_same (m : Memory) (a : Nat) (v : Word) :
    Memory.read (Memory.insert m a v) a = v := by
  induction m with
  | nil => simp [Memory.insert, Memory.read]
  | cons c rest ih =>
    unfold Memory.insert
    split
    · simp [Memory.read]
    · split
      · simp [Memory.read]
      · rename_i hne
        simp [Memory.read, hne, ih]

theorem Memory.read_insert_other (m : Memory) {a b : Nat} (v : Word) (h : b ≠ a) :
    Memory.read (Memory.insert m a v) b = Memory.read m b := by
  induction m with
  | nil => simp [Memory.insert, Memory.read, h.symm]
  | cons c rest ih =>
    unfold Memory.insert
    split
    · simp [Memory.read, h.symm]
    · split
      · rename_i _ e
        simp [Memory.read, h.symm, e]
      · simp [Memory.read, ih]

theorem Memory.read_erase_other (m : Memory) {a b : Nat} (h : b ≠ a) :
    Memory.read (Memory.erase m a) b = Memory.read m b := by
  induction m with
  | nil => rfl
  | cons c rest ih =>
    unfold Memory.erase
    split
    · rename_i e
      simp [Memory.read, e, h.symm]
    · simp [Memory.read, ih]

theorem Memory.read_erase_same (m : Memory) (a : Nat)
    (h : m.Pairwise (fun c d => c.1 < d.1)) :
    Memory.read (Memory.erase m a) a = Config.unlistedWord := by
  induction m with
  | nil => rfl
  | cons c rest ih =>
    rw [List.pairwise_cons] at h
    unfold Memory.erase
    split
    · rename_i e
      exact Memory.read_of_forall_ne rest a fun d hd => by
        have := h.1 d hd
        omega
    · rename_i hne
      simp [Memory.read, hne, ih h.2]

/-! ### The write of 20_memory.md R42 -/

/-- A read of the address just written gives the value written. -/
theorem Memory.read_write_same {m : Memory} (hm : m.wf) {a : Nat} (ha : a ≤ 8191) (v : Word) :
    Memory.read (Memory.write m a v) a = v := by
  have ha' : a ≤ Config.lastAddress := ha
  unfold Memory.write
  rw [if_pos ha']
  split
  · rename_i hv
    rw [Memory.read_erase_same m a hm.1, hv]
  · exact Memory.read_insert_same m a v

/-- A write leaves every other address alone (R42: "no other word changes"). -/
theorem Memory.read_write_other (m : Memory) {a b : Nat} (v : Word) (h : b ≠ a) :
    Memory.read (Memory.write m a v) b = Memory.read m b := by
  unfold Memory.write
  split
  · split
    · exact Memory.read_erase_other m h
    · exact Memory.read_insert_other m v h
  · rfl

/-! ### The canonical form -/

theorem Memory.mem_erase_subset (m : Memory) (a : Nat) : ∀ c ∈ Memory.erase m a, c ∈ m := by
  induction m with
  | nil => simp [Memory.erase]
  | cons c rest ih =>
    unfold Memory.erase
    split
    · exact fun d hd => List.mem_cons_of_mem _ hd
    · intro d hd
      rcases List.mem_cons.1 hd with e | e
      · simp [e]
      · exact List.mem_cons_of_mem _ (ih d e)

theorem Memory.erase_rising (m : Memory) (a : Nat) (h : m.Pairwise (fun c d => c.1 < d.1)) :
    (Memory.erase m a).Pairwise (fun c d => c.1 < d.1) := by
  induction m with
  | nil => simp [Memory.erase]
  | cons c rest ih =>
    rw [List.pairwise_cons] at h
    unfold Memory.erase
    split
    · exact h.2
    · exact List.pairwise_cons.2
        ⟨fun d hd => h.1 d (Memory.mem_erase_subset rest a d hd), ih h.2⟩

theorem Memory.mem_insert_cases (m : Memory) (a : Nat) (v : Word) :
    ∀ c ∈ Memory.insert m a v, c = (a, v) ∨ c ∈ m := by
  induction m with
  | nil => simp [Memory.insert]
  | cons c rest ih =>
    unfold Memory.insert
    split
    · simp
    · split
      · intro d hd
        rcases List.mem_cons.1 hd with e | e
        · exact .inl e
        · exact .inr (List.mem_cons_of_mem _ e)
      · intro d hd
        rcases List.mem_cons.1 hd with e | e
        · exact .inr (by simp [e])
        · exact (ih d e).imp_right (List.mem_cons_of_mem _)

theorem Memory.insert_rising (m : Memory) (a : Nat) (v : Word)
    (h : m.Pairwise (fun c d => c.1 < d.1)) :
    (Memory.insert m a v).Pairwise (fun c d => c.1 < d.1) := by
  induction m with
  | nil => simp [Memory.insert]
  | cons c rest ih =>
    obtain ⟨b, w⟩ := c
    have hc := List.pairwise_cons.1 h
    unfold Memory.insert
    split
    · rename_i hab
      refine List.pairwise_cons.2 ⟨fun d hd => ?_, h⟩
      rcases List.mem_cons.1 hd with e | e
      · simpa [e] using hab
      · exact Nat.lt_trans hab (hc.1 d e)
    · split
      · rename_i hba
        subst hba
        exact List.pairwise_cons.2 ⟨hc.1, hc.2⟩
      · refine List.pairwise_cons.2 ⟨fun d hd => ?_, ih hc.2⟩
        rcases Memory.mem_insert_cases rest a v d hd with e | e
        · simp only [e]
          omega
        · exact hc.1 d e

/-- Every write keeps the canonical form. -/
theorem Memory.write_wf {m : Memory} (hm : m.wf) (a : Nat) (v : Word) :
    (Memory.write m a v).wf := by
  unfold Memory.write
  split
  · rename_i ha
    split
    · exact ⟨Memory.erase_rising m a hm.1, fun c hc => hm.2 c (Memory.mem_erase_subset m a c hc)⟩
    · rename_i hv
      refine ⟨Memory.insert_rising m a v hm.1, fun c hc => ?_⟩
      rcases Memory.mem_insert_cases m a v c hc with e | e
      · simpa [e] using ⟨ha, hv⟩
      · exact hm.2 c e
  · exact hm

/-- Loading image words keeps the canonical form. -/
theorem Loader.storeFrom_wf (image : List Word) (a : Nat) {m : Memory} (hm : m.wf) :
    (Loader.storeFrom a image m).wf := by
  induction image generalizing a m with
  | nil => exact hm
  | cons v rest ih => exact ih (a + 1) (Memory.write_wf hm a v)

/-- The reset memory lists nothing, so it has the canonical form. -/
theorem State.reset_mem_wf : State.reset.mem.wf := by decide

/-! ### The memory of a state -/

theorem State.memRead_memWrite_same {s : State} (hs : s.mem.wf) {a : Nat} (ha : a ≤ 8191)
    (v : Word) : (s.memWrite a v).memRead a = v :=
  Memory.read_write_same hs ha v

theorem State.memRead_memWrite_other (s : State) {a b : Nat} (v : Word) (h : b ≠ a) :
    (s.memWrite a v).memRead b = s.memRead b :=
  Memory.read_write_other s.mem v h

end Sys2Proof.Machine
end

