-- ==== Sys2Proof/Laws/Ops.lean ====
section
/-! SUPPORT. One lemma per shared operation that says everything it does. -/

namespace Sys2Proof.Machine

/-! ### Arithmetic and comparison -/

/-- The wrapped sum is the exact sum modulo 65536. -/
theorem wrapSum_toNat (a b : Nat) : (wrapSum a b).toNat = (a + b) % 65536 := by
  simp [wrapSum]

/-- The wrapped difference is the exact integer difference modulo 65536. -/
theorem wrapDifference_toNat (a b : Nat) :
    ((wrapDifference a b).toNat : Int) = ((a : Int) - (b : Int)) % 65536 := by
  have h : (0 : Int) ≤ ((a : Int) - (b : Int)) % 65536 := Int.emod_nonneg _ (by decide)
  simp [wrapDifference, BitVec.toNat_ofInt, Int.toNat_of_nonneg h]

/-- The comparison result is exactly 1 or 0. -/
theorem lessThanWord_toNat (a b : Nat) : (lessThanWord a b).toNat = if a < b then 1 else 0 := by
  unfold lessThanWord
  split <;> rfl

theorem State.regsEqual_iff (s : State) (rs1 rs2 : RegIndex) :
    s.regsEqual rs1 rs2 = true ↔ s.reg rs1 = s.reg rs2 := by
  simp [State.regsEqual, State.regValue, BitVec.toNat_eq]

/-! ### Ending an instruction -/

/-- All that ending with a register result does: the register holds the value, `pc` advances, and
nothing else changes. -/
theorem finishWithReg_spec (rd : RegIndex) (v : Word) (s : State) :
    ∃ t, finishWithReg rd v s = .next t ∧ t.reg rd = v ∧ SameRegsBut rd s t ∧ SameMem s t ∧
      t.mem = s.mem ∧ t.pc = s.pc + 1 ∧ t.status = s.status :=
  ⟨_, rfl, by simp, fun _ h => State.reg_setReg_other s v h, fun _ => rfl, rfl, rfl, rfl⟩

/-- All that taking a fault does. -/
theorem State.raiseFault_tookFault (s : State) (c : FaultCause) (v : Nat) :
    TookFault c v s (s.raiseFault c v) :=
  ⟨rfl, fun _ => rfl, fun _ => rfl, rfl⟩

/-- All that entering the halted state does. -/
theorem State.enterHalted_spec (s : State) :
    s.enterHalted.status = .halted ∧ SameRegs s s.enterHalted ∧ SameMem s s.enterHalted ∧
      s.enterHalted.pc = s.pc :=
  ⟨rfl, fun _ => rfl, fun _ => rfl, rfl⟩

/-! ### Fetch -/

theorem State.fetch_of_le {s : State} (h : s.pc ≤ 8191) : s.fetch = some (s.memRead s.pc) :=
  if_pos h

theorem State.fetch_of_gt {s : State} (h : 8191 < s.pc) : s.fetch = none :=
  if_neg (Nat.not_le.2 h)

end Sys2Proof.Machine
end

