-- ==== Sys2Proof/Laws/PerInstr.lean ====
section
/-! SUPPORT. The per-instruction family `OpcodeField`: the opcode bits of an instruction's word, and
that only `halt` is written as 0x0000 (spec 30_encoding.md R63, R64, R72). -/

namespace Sys2Proof.Laws

/-- The number whose top three bits are the opcode, read back. -/
theorem packFields_opcode (f : Fields) : (wordFields (packFields f)).opcode = f.opcode := by
  apply Fin.ext
  simp only [wordFields, packFields, threeBits, BitVec.toNat_ofNat]
  omega

theorem packFields_ne_zero {f : Fields} (h : f.opcode ≠ 0) : packFields f ≠ 0 := by
  intro e
  have := packFields_opcode f
  rw [e] at this
  exact h (this.symm.trans (by decide))

theorem encodeRegs_ne_zero {opcode : Fin 8} (h : opcode ≠ 0) (rd rs1 rs2 : RegIndex) :
    encodeRegs opcode rd rs1 rs2 ≠ 0 :=
  packFields_ne_zero h

theorem encodeImm_ne_zero {opcode : Fin 8} (h : opcode ≠ 0) (rd rs1 : RegIndex) (imm : Nat) :
    encodeImm opcode rd rs1 imm ≠ 0 :=
  packFields_ne_zero h

/-- `add`'s word is never 0x0000, which is `halt` (R70). -/
theorem encodeAdd_ne_zero (rd rs1 rs2 : RegIndex) : encodeAdd rd rs1 rs2 ≠ 0 := by
  unfold encodeAdd
  split
  · decide
  · rename_i h
    refine fun e => h ?_
    have e' := congrArg BitVec.toNat e
    simp only [encodeRegs, packFields, BitVec.toNat_ofNat] at e'
    have z : (0 : Fin 16).val = 0 := rfl
    have z8 : (0 : Fin 8).val = 0 := rfl
    have zw : BitVec.toNat (0 : Word) = 0 := rfl
    rw [z, z8, zw] at e'
    refine ⟨Fin.ext ?_, Fin.ext ?_, Fin.ext ?_⟩ <;> simp only [z8] <;> omega

theorem encodeAdd_opcode (rd rs1 rs2 : RegIndex) :
    (wordFields (encodeAdd rd rs1 rs2)).opcode = 0 := by
  unfold encodeAdd
  split
  · decide
  · exact packFields_opcode _

/-- The opcode R63 gives an instruction; `halt` shares 000 with `add`. -/
def opcodeOf : Instr → Fin 8
  | .halt => 0
  | .add _ _ _ => 0
  | .addi _ _ _ => 1
  | .sub _ _ _ => 2
  | .subi _ _ _ => 3
  | .lw _ _ _ => 4
  | .sw _ _ _ => 5
  | .slt _ _ _ => 6
  | .jeq _ _ _ => 7

/-- The word of an instruction carries its opcode, and is 0x0000 for `halt` alone. -/
def OpcodeField.Statement (i : Instr) : Prop :=
  (wordFields (encodeWord i)).opcode = opcodeOf i ∧ (encodeWord i = 0 ↔ i = .halt)

theorem OpcodeField.halt : OpcodeField.Statement .halt := by
  constructor <;> decide

theorem OpcodeField.add (rd rs1 rs2 : RegIndex) : OpcodeField.Statement (.add rd rs1 rs2) :=
  ⟨encodeAdd_opcode rd rs1 rs2, iff_of_false (encodeAdd_ne_zero rd rs1 rs2) (by simp)⟩

theorem OpcodeField.addi (rd rs1 : RegIndex) (imm : Nat) :
    OpcodeField.Statement (.addi rd rs1 imm) :=
  ⟨packFields_opcode _, iff_of_false (encodeImm_ne_zero (by decide) rd rs1 imm) (by simp)⟩

theorem OpcodeField.sub (rd rs1 rs2 : RegIndex) :
    OpcodeField.Statement (.sub rd rs1 rs2) :=
  ⟨packFields_opcode _, iff_of_false (encodeRegs_ne_zero (by decide) rd rs1 rs2) (by simp)⟩

theorem OpcodeField.subi (rd rs1 : RegIndex) (imm : Nat) :
    OpcodeField.Statement (.subi rd rs1 imm) :=
  ⟨packFields_opcode _, iff_of_false (encodeImm_ne_zero (by decide) rd rs1 imm) (by simp)⟩

theorem OpcodeField.lw (rd rs1 : RegIndex) (imm : Nat) :
    OpcodeField.Statement (.lw rd rs1 imm) :=
  ⟨packFields_opcode _, iff_of_false (encodeImm_ne_zero (by decide) rd rs1 imm) (by simp)⟩

theorem OpcodeField.sw (rd rs1 : RegIndex) (imm : Nat) :
    OpcodeField.Statement (.sw rd rs1 imm) :=
  ⟨packFields_opcode _, iff_of_false (encodeImm_ne_zero (by decide) rd rs1 imm) (by simp)⟩

theorem OpcodeField.slt (rd rs1 rs2 : RegIndex) :
    OpcodeField.Statement (.slt rd rs1 rs2) :=
  ⟨packFields_opcode _, iff_of_false (encodeRegs_ne_zero (by decide) rd rs1 rs2) (by simp)⟩

theorem OpcodeField.jeq (rd rs1 rs2 : RegIndex) :
    OpcodeField.Statement (.jeq rd rs1 rs2) :=
  ⟨packFields_opcode _, iff_of_false (encodeRegs_ne_zero (by decide) rd rs1 rs2) (by simp)⟩

end Sys2Proof.Laws
end

