-- ==== Sys2Proof/Tests/Slice0.lean ====
section
/-! SUPPORT. Small tests, one step each, whose expected results are the spec's own examples and vectors
(95_test_vectors.md, 30_encoding.md), and a witness for the hypotheses of each statement that has
any. -/

namespace Sys2Proof.Tests

open Sys2Proof.Machine

/-! ### WellFormed refuses what cannot be encoded (30_encoding.md R72) -/

theorem test_addi_wide_immediate_refused : (Instr.addi 1 0 16).wellFormed = false := by decide
theorem test_subi_wide_immediate_refused : (Instr.subi 1 0 0xFFFF).wellFormed = false := by decide
theorem test_lw_wide_immediate_refused : (Instr.lw 1 0 16).wellFormed = false := by decide
theorem test_sw_wide_immediate_refused : (Instr.sw 1 0 16).wellFormed = false := by decide
theorem test_wide_immediate_not_assembled : encode (.addi 1 0 0xFFFF) = none := by decide
theorem test_immediate_15_accepted : (Instr.sw 7 7 15).WellFormed := by decide

/-! ### Decoding, words written out bit by bit: opcode rd rs1 rs2 imm (30_encoding.md R61, R63) -/

theorem test_decode_halt : decode 0b0000000000000000 = .halt := by decide
theorem test_decode_add : decode 0b0000110010100000 = .add 3 1 2 := by decide
theorem test_decode_add_ignored_imm : decode 0b0001111111111111 = .add 7 7 7 := by decide
theorem test_decode_add_zero : decode 0b0000000000000001 = .add 0 0 0 := by decide
theorem test_decode_addi : decode 0b0010010000000101 = .addi 1 0 5 := by decide
theorem test_decode_addi_ignored_rs2 : decode 0b0010010001110101 = .addi 1 0 5 := by decide
theorem test_decode_sub : decode 0b0100110010100000 = .sub 3 1 2 := by decide
theorem test_decode_subi : decode 0b0110010010000001 = .subi 1 1 1 := by decide
theorem test_decode_lw : decode 0b1000100010000011 = .lw 2 1 3 := by decide
theorem test_decode_sw : decode 0b1010100010000011 = .sw 2 1 3 := by decide
theorem test_decode_slt : decode 0b1100110010100000 = .slt 3 1 2 := by decide
theorem test_decode_jeq : decode 0b1110110010100000 = .jeq 3 1 2 := by decide
theorem test_decode_jeq_all_ones : decode 0b1111111111111111 = .jeq 7 7 7 := by decide
theorem test_encode_add_zero : encode (.add 0 0 0) = some 0x0001 := by decide
theorem test_decodeTableWord : decodeTableWord 16 0xF880 = some (.jeq 6 1 0) := by decide

/-! ### One step at `pc` 100 (95_test_vectors.md section 2) -/

/-- A RUNNING state with the given memory and `x[0]` to `x[3]`. -/
def build (pc : Nat) (mem : Memory) (x0 x1 x2 x3 : Word) : State :=
  ((({ State.reset with pc := pc, mem := mem }.setReg 0 x0).setReg 1 x1).setReg 2 x2).setReg 3 x3

/-- The next state, where there is one. -/
def next? (s : State) : Option State :=
  match step s with
  | .next t => some t
  | .fault _ => none
  | .refused _ => none

/-- The register and `pc` after one step of the word `w` at address 100. -/
def after (w x0 x1 x2 x3 : Word) (r : RegIndex) : Option (Nat × Nat) :=
  (next? (build 100 [(100, w)] x0 x1 x2 x3)).map fun t => ((t.reg r).toNat, t.pc)

/-- The status and `pc` after one step of the word `w` at address 100. -/
def statusAfter (w x0 x1 x2 x3 : Word) : Option (Status × Nat) :=
  (next? (build 100 [(100, w)] x0 x1 x2 x3)).map fun t => (t.status, t.pc)

/-- Vector A3. -/
theorem test_add_wraps : after 0x0CA0 0 65535 65535 0 3 = some (65534, 101) := by decide
/-- Vector A4. -/
theorem test_add_same_register : after 0x0490 0 40000 0 0 1 = some (14464, 101) := by decide
/-- Vector A7. -/
theorem test_addi_wraps : after 0x248F 0 65530 0 0 1 = some (9, 101) := by decide
/-- Vector A9. -/
theorem test_addi_writes_register_zero : after 0x200F 0 0 0 0 0 = some (15, 101) := by decide
/-- Vector A10. -/
theorem test_sub_wraps : after 0x4CA0 0 5 7 0 3 = some (65534, 101) := by decide
/-- Vector A11. -/
theorem test_sub_order : after 0x4CA0 0 0 65535 0 3 = some (1, 101) := by decide
/-- Vector A8. -/
theorem test_subi_wraps : after 0x6481 0 0 0 0 1 = some (65535, 101) := by decide
/-- Vector A14. -/
theorem test_subi_by_15 : after 0x648F 0 3 0 0 1 = some (65524, 101) := by decide
/-- Vector C5. -/
theorem test_slt_unsigned : after 0xCCA0 0 65535 0 9 3 = some (0, 101) := by decide
/-- Vector C6. -/
theorem test_slt_same_register : after 0xC4A0 0 3 8 0 1 = some (1, 101) := by decide

/-- Vector L1. -/
theorem test_lw_loads :
    (next? (build 100 [(32, 0xBEEF), (100, 0x8883)] 0 29 0 0)).map (·.reg 2) = some 0xBEEF := by
  decide
/-- Vector L4. -/
theorem test_lw_does_not_wrap :
    statusAfter 0x8881 0 65535 0 0 = some (.faulted ⟨.loadOutOfRange, 100, 65536⟩, 100) := by decide
/-- Vector L8. -/
theorem test_sw_stores :
    (next? (build 100 [(100, 0xA88F)] 0 8176 7 0)).map (·.mem) =
      some [(100, 0xA88F), (8191, 7)] := by decide
/-- Vector L7. -/
theorem test_sw_out_of_range :
    statusAfter 0xA882 0 8190 7 0 = some (.faulted ⟨.storeOutOfRange, 100, 8192⟩, 100) := by decide
/-- Vector J1. -/
theorem test_jeq_jumps : statusAfter 0xECA0 0 7 7 200 = some (.running, 200) := by decide
/-- Vector J4. -/
theorem test_jeq_not_taken_does_not_check :
    statusAfter 0xECA0 0 1 2 65535 = some (.running, 101) := by decide
/-- Vector J3. -/
theorem test_jeq_out_of_range :
    statusAfter 0xECA0 0 0 0 8192 = some (.faulted ⟨.jumpTargetOutOfRange, 100, 8192⟩, 100) := by
  decide
/-- Vector H1. -/
theorem test_halt_keeps_registers :
    (next? (build 100 [] 5 0 0 0)).map (fun t => (t.status, t.reg 0)) = some (.halted, 5) := by
  decide
/-- Vector H3. -/
theorem test_fetch_past_the_end :
    (next? (build 8192 [] 0 0 0 0)).map (·.status) =
      some (.faulted ⟨.fetchOutOfRange, 8192, 8192⟩) := by decide
/-- Vectors L10 and J6: storing 0 removes the entry, and `pc` advances to 8192 without wrap. -/
theorem test_sw_zero_unlists :
    (next? (build 100 [(100, 0xA081), (101, 9)] 0 100 0 0)).map (·.mem) = some [(100, 0xA081)] := by
  decide
theorem test_pc_does_not_wrap :
    (next? (build 8191 [(8191, 0xECA0)] 0 1 2 0)).map (·.pc) = some 8192 := by decide

/-! ### Reset, image, observation, written form -/

/-- Scenario S6: the sentinel is observed after the first step of the reset state. -/
theorem test_reset_halts : (next? State.reset).map (·.observe.pc) = some (-1) := by decide
theorem test_withFetchWord_runs :
    (next? (State.reset.withFetchWord 16 0x2405)).map (·.reg 1) = some 5 := by decide
/-- Program P1's first image line, most significant bit first (70_reset_and_hazards.md R163). -/
theorem test_parse_image_line :
    Loader.parseLine "ram[0] = 16'b0010010000000101; trailing" = some ⟨0, 0x2405⟩ := by decide
theorem test_load_gap_refused :
    Loader.checkLines 0 [some ⟨0, 1⟩, some ⟨2, 1⟩] = .failed .sequencing := by decide
theorem test_load_address_8192_refused :
    Loader.checkLines 0 [some ⟨8192, 1⟩] = .failed .capacity := by decide
/-- The source's one example of the written form (30_encoding.md R72). -/
theorem test_disassemble : disassemble 0x2405 = "addi $1, $0, 5" := by decide
theorem test_raw_word : (AsmItem.word 0x2475).assemble = some 0x2475 := by decide

/-! ### Witnesses: a state and operands that meet the hypotheses of each statement

The RUNNING state alone is the hypothesis of the statements on `add`, `sub`, `slt` and `halt`, of
`RunningStateAlwaysHasAStep` and, with an immediate of 15, of those on `addi`, `subi`,
`RegisterZeroIsAnOrdinaryRegister` and `SignedReadingGetsTheSameBits`. -/

theorem witness_running : State.reset.status = .running ∧ 15 ≤ 15 := by decide

theorem witness_add_opcode : (0x0001 : Word) ≠ 0 ∧ (wordFields 0x0001).opcode = 0 := by decide
theorem witness_addi_opcode : (wordFields 0x2000).opcode = 1 := by decide
theorem witness_sub_opcode : (wordFields 0x5FFF).opcode = 2 := by decide
theorem witness_subi_opcode : (wordFields 0x7FFF).opcode = 3 := by decide
theorem witness_lw_opcode : (wordFields 0x9FFF).opcode = 4 := by decide
theorem witness_sw_opcode : (wordFields 0xA000).opcode = 5 := by decide
theorem witness_jeq_opcode : (wordFields 0xFFFF).opcode = 7 := by decide
theorem witness_slt_opcode : (wordFields 0xC000).opcode = 6 := by decide

theorem witness_bit_positions : 2 < 3 ∧ 3 < 4 := by decide
theorem witness_well_formed : (Instr.lw 7 0 15).WellFormed := by decide
/-- Two words that differ in the ignored `rs2` (vectors V5, V6). -/
theorem witness_ignored_rs2 :
    (0x2405 : Word) ≠ 0 ∧ (0x2475 : Word) ≠ 0 ∧ (0x2405 : Word) ≠ 0x2475 ∧
    (wordFields 0x2405).opcode = (wordFields 0x2475).opcode ∧
    (wordFields 0x2405).rd = (wordFields 0x2475).rd ∧
    (wordFields 0x2405).rs1 = (wordFields 0x2475).rs1 ∧
    (wordFields 0x2405).opcode ∉ [0, 2, 6, 7] ∧
    (wordFields 0x2405).imm = (wordFields 0x2475).imm := by decide
/-- Two words that differ in the ignored `imm`, one of them the lowest word of `add`. -/
theorem witness_ignored_imm :
    (0x0001 : Word) ≠ 0 ∧ (0x000F : Word) ≠ 0 ∧
    (wordFields 0x0001).opcode = (wordFields 0x000F).opcode ∧
    (wordFields 0x0001).rd = (wordFields 0x000F).rd ∧
    (wordFields 0x0001).rs1 = (wordFields 0x000F).rs1 ∧
    (wordFields 0x0001).rs2 = (wordFields 0x000F).rs2 ∧
    (wordFields 0x0001).opcode ∉ [1, 3, 4, 5] := by decide

/-- `lw` and `sw` at the last address, 8191. -/
theorem witness_access_in_range :
    (build 0 [] 0 8176 0 0).status = .running ∧ (build 0 [] 0 8176 0 0).mem.wf ∧
    (build 0 [] 0 8176 0 0).effectiveAddress 1 15 = 8191 ∧
    ((build 0 [] 0 8176 0 0).reg 1).toNat + 15 ≤ 8191 := by decide
/-- `lw` and `sw` at the first address past the end, 8192. -/
theorem witness_access_out_of_range :
    (build 0 [] 0 8177 0 0).status = .running ∧
    8191 < ((build 0 [] 0 8177 0 0).reg 1).toNat + 15 := by decide
/-- A store and a load that form the address 8191 from different bases. -/
theorem witness_round_trip :
    (build 0 [] 0 8176 8191 0).status = .running ∧ (build 0 [] 0 8176 8191 0).mem.wf ∧
    (build 0 [] 0 8176 8191 0).effectiveAddress 1 15 ≤ 8191 ∧
    (build 0 [] 0 8176 8191 0).effectiveAddress 2 0 =
      (build 0 [] 0 8176 8191 0).effectiveAddress 1 15 := by decide
theorem witness_jeq_unequal :
    (build 0 [] 0 1 2 8192).status = .running ∧
    (build 0 [] 0 1 2 8192).reg 1 ≠ (build 0 [] 0 1 2 8192).reg 2 := by decide
theorem witness_jeq_target_last :
    (build 0 [] 0 1 1 8191).status = .running ∧
    (build 0 [] 0 1 1 8191).reg 1 = (build 0 [] 0 1 1 8191).reg 2 ∧
    ((build 0 [] 0 1 1 8191).reg 3).toNat ≤ 8191 := by decide
theorem witness_jeq_target_past_the_end :
    (build 0 [] 0 1 1 8192).status = .running ∧
    (build 0 [] 0 1 1 8192).reg 1 = (build 0 [] 0 1 1 8192).reg 2 ∧
    8191 < ((build 0 [] 0 1 1 8192).reg 3).toNat := by decide

/-- A RUNNING state at the last fetched address, and the instruction there. -/
theorem witness_fetch_last :
    (build 8191 [(8191, 0x2405)] 0 0 0 0).status = .running ∧
    (build 8191 [(8191, 0x2405)] 0 0 0 0).pc ≤ 8191 ∧
    decode ((build 8191 [(8191, 0x2405)] 0 0 0 0).memRead 8191) = .addi 1 0 5 ∧
    (Instr.addi 1 0 5).WellFormed := by decide
/-- The first `pc` at which no fetch happens. -/
theorem witness_fetch_past_the_end :
    (build 8192 [] 0 0 0 0).status = .running ∧ 8191 < (build 8192 [] 0 0 0 0).pc := by decide
theorem witness_halted : State.reset.enterHalted.status = .halted := by decide
theorem witness_faulted :
    (State.reset.raiseFault .fetchOutOfRange 8192).status =
      .faulted ⟨.fetchOutOfRange, 0, 8192⟩ := by decide

/-- A step that stays RUNNING with a register written. -/
theorem witness_step_running :
    step (build 0 [(0, 0x2405)] 0 0 0 0) =
      .next ((build 0 [(0, 0x2405)] 0 0 0 0).setReg 1 5).advancePc := by rfl
/-- A step that stays RUNNING with a word stored, `sw $0, $1, 1`. -/
theorem witness_step_store :
    step (build 0 [(0, 0xA081)] 7 0 0 0) =
      .next ((build 0 [(0, 0xA081)] 7 0 0 0).memWrite 1 7).advancePc := by rfl
/-- A step that stays RUNNING with a taken jump, `jeq $0, $0, $0` to itself. -/
theorem witness_step_jump :
    step (build 0 [(0, 0xE000)] 0 0 0 0) = .next ((build 0 [(0, 0xE000)] 0 0 0 0).setPc 0) ∧
    decode ((build 0 [(0, 0xE000)] 0 0 0 0).memRead 0) = .jeq 0 0 0 := ⟨rfl, by decide⟩
theorem witness_step_halts : step State.reset = .next State.reset.enterHalted := by rfl
/-- A fetch fault at 8192. -/
theorem witness_step_fetch_fault :
    step (build 8192 [] 0 0 0 0) =
      .next ((build 8192 [] 0 0 0 0).raiseFault .fetchOutOfRange 8192) := by rfl
/-- A load fault at 8192, `lw $2, $1, 1`. -/
theorem witness_step_load_fault :
    step (build 0 [(0, 0x8881)] 0 8191 0 0) =
      .next ((build 0 [(0, 0x8881)] 0 8191 0 0).raiseFault .loadOutOfRange 8192) := by rfl
/-- A store fault at 8192, `sw $2, $1, 1`. -/
theorem witness_step_store_fault :
    step (build 0 [(0, 0xA881)] 0 8191 0 0) =
      .next ((build 0 [(0, 0xA881)] 0 8191 0 0).raiseFault .storeOutOfRange 8192) := by rfl
/-- A jump fault at 8192, `jeq $3, $1, $2`. -/
theorem witness_step_jump_fault :
    step (build 0 [(0, 0xECA0)] 0 0 0 8192) =
      .next ((build 0 [(0, 0xECA0)] 0 0 0 8192).raiseFault .jumpTargetOutOfRange 8192) := by rfl

/-- Two different RUNNING states that agree in what `addi $1, $0, 5` reads. -/
theorem witness_register_reads :
    (build 0 [] 4 1 0 0).status = .running ∧ (build 0 [] 4 2 0 0).status = .running ∧
    (build 0 [] 4 2 0 0).pc = (build 0 [] 4 1 0 0).pc ∧
    (build 0 [] 4 2 0 0).mem = (build 0 [] 4 1 0 0).mem ∧
    (∀ r ∈ readRegisters (build 0 [] 4 1 0 0) (.addi 1 0 5),
      (build 0 [] 4 2 0 0).reg r = (build 0 [] 4 1 0 0).reg r) ∧
    (build 0 [] 4 2 0 0).reg 1 ≠ (build 0 [] 4 1 0 0).reg 1 := by decide
/-- `sw $2, $1, 0` at 8190 stores to 8191, the next address. -/
theorem witness_store_to_next_address :
    (build 8190 [(8190, 0xA880)] 0 8191 0x2405 0).status = .running ∧
    (build 8190 [(8190, 0xA880)] 0 8191 0x2405 0).mem.wf ∧
    (build 8190 [(8190, 0xA880)] 0 8191 0x2405 0).pc + 1 ≤ 8191 ∧
    decode ((build 8190 [(8190, 0xA880)] 0 8191 0x2405 0).memRead 8190) = .sw 2 1 0 ∧
    (build 8190 [(8190, 0xA880)] 0 8191 0x2405 0).effectiveAddress 1 0 = 8190 + 1 := by decide
theorem witness_place_fetch_word :
    (build 8191 [] 0 0 0 0).status = .running ∧ (build 8191 [] 0 0 0 0).mem.wf ∧
    (build 8191 [] 0 0 0 0).pc ≤ 8191 ∧ 65535 < 65536 := by decide

theorem witness_writes :
    State.reset.mem.wf ∧ ∀ c ∈ ([(0, 1), (8191, 2), (0, 3)] : List (Nat × Word)), c.1 ≤ 8191 := by
  decide
/-- A canonical memory that is not empty, and equals itself in every read. -/
theorem witness_canonical_memories :
    Memory.wf [(0, 1), (8191, 2)] ∧
    ∀ a, a ≤ 8191 → Memory.read [(0, 1), (8191, 2)] a = Memory.read [(0, 1), (8191, 2)] a :=
  ⟨by decide, fun _ _ => rfl⟩
/-- A state that meets the invariant and has a step: `pc` at 8192, the boundary. -/
theorem witness_invariant_step :
    Inv (build 8192 [(8191, 1)] 0 0 0 0) ∧
    step (build 8192 [(8191, 1)] 0 0 0 0) =
      .next ((build 8192 [(8191, 1)] 0 0 0 0).raiseFault .fetchOutOfRange 8192) :=
  ⟨⟨by decide, Nat.le_refl 8192⟩, rfl⟩
/-- A run from an image that takes a step: `addi $1, $0, 5`. -/
theorem witness_run_from_image :
    Loader.start [0x2405] = some (Loader.startState [0x2405]) ∧
    Reaches (Loader.startState [0x2405]) ((Loader.startState [0x2405]).setReg 1 5).advancePc :=
  ⟨rfl, .tail (.refl _) rfl⟩
/-- The longest image. -/
theorem witness_longest_image : (List.replicate 8192 (1 : Word)).length ≤ 8192 :=
  Nat.le_of_eq List.length_replicate
theorem witness_too_long_image : 8192 < (List.replicate 8193 (1 : Word)).length :=
  Nat.lt_of_lt_of_eq (Nat.lt_succ_self 8192) List.length_replicate.symm
theorem witness_end_of_run : runToEnd 1 State.reset = some State.reset.enterHalted := by rfl
/-- An ended state that is reached by a step, and one that is reached by none. -/
theorem witness_ended_state_reached :
    Reaches State.reset State.reset.enterHalted ∧
    Reaches State.reset.enterHalted State.reset.enterHalted ∧
    State.reset.enterHalted.status ≠ .running :=
  ⟨.tail (.refl _) rfl, .refl _, by decide⟩
/-- Lines at contiguous addresses, and lines with a repeated one. -/
theorem witness_lines :
    ([⟨0, 1⟩, ⟨1, 2⟩] : List Loader.ImageLine).map (·.address) = List.range 2 ∧
    ([⟨0, 1⟩, ⟨0, 2⟩] : List Loader.ImageLine).map (·.address) ≠ List.range 2 := by decide
/-- The default sentinel is out of band, and so is 65536. -/
theorem witness_out_of_band :
    Config.OutOfBand Config.defaultHaltSentinel ∧ Config.OutOfBand 65536 ∧ Inv State.reset :=
  ⟨.inl (by decide), .inr (by decide), by decide, Nat.zero_le 8192⟩
theorem witness_observation : State.reset.observe = (Loader.startState []).observe := by rfl

end Sys2Proof.Tests
end

section
/-! Proofs about the state (spec 10_state.md): register 0 is an ordinary register (R21), and what every
piece of state holds after reset with a program image (R39). -/

namespace Sys2Proof.Machine

/-! ### Registers -/

/-- Every register reads back what was written to it, and the others are left alone. -/
theorem State.reg_setReg (s : State) (r q : RegIndex) (v : Word) :
    (s.setReg r v).reg q = if q = r then v else s.reg q := by
  split
  next h => rw [h, State.reg_setReg_same]
  next h => exact State.reg_setReg_other s v h

/-- The meaning of `addi`, by the values of its operands (41_arithmetic.md R101). -/
theorem exec_addi (rd rs1 : RegIndex) (imm : Nat) (s : State) :
    exec (.addi rd rs1 imm) s = finishWithReg rd (wrapSum (s.reg rs1).toNat imm) s := rfl

/-- The destination of `addi` holds the wrapped sum, whichever register it is. -/
theorem exec_addi_result (rd rs1 : RegIndex) (imm : Nat) (s : State) :
    ∃ t, exec (.addi rd rs1 imm) s = .next t ∧
      (t.reg rd).toNat = ((s.reg rs1).toNat + imm) % 65536 := by
  obtain ⟨t, hnext, hreg, -⟩ := finishWithReg_spec rd (wrapSum (s.reg rs1).toNat imm) s
  exact ⟨t, (exec_addi rd rs1 imm s).trans hnext, by rw [hreg, wrapSum_toNat]⟩

/-- Settles O16: the register rules make no exception for index 0. -/
theorem registerZeroIsAnOrdinaryRegister : Obligations.RegisterZeroIsAnOrdinaryRegister := by
  unfold Obligations.RegisterZeroIsAnOrdinaryRegister
  exact ⟨State.reg_setReg, fun s imm _ _ => exec_addi_result 0 0 imm s⟩

/-! ### Reads after an image is loaded -/

/-- Storing words from address `a` on leaves every address outside the stored range alone. -/
theorem Loader.read_storeFrom_outside (image : List Word) {a b : Nat} (m : Memory)
    (h : b < a ∨ a + image.length ≤ b) :
    Memory.read (Loader.storeFrom a image m) b = Memory.read m b := by
  induction image generalizing a m with
  | nil => rfl
  | cons v rest ih =>
    rw [List.length_cons] at h
    calc Memory.read (Loader.storeFrom (a + 1) rest (m.write a v)) b
        _ = Memory.read (m.write a v) b := ih _ (by omega)
        _ = Memory.read m b := Memory.read_write_other m v (by omega)

/-- Storing words from address `a` on puts word `i` at address `a + i`. The later words go to higher
addresses, so they do not overwrite it. -/
theorem Loader.read_storeFrom_inside (image : List Word) {a i : Nat} {m : Memory} (hm : m.wf)
    (hfit : a + image.length ≤ 8192) (hi : i < image.length) :
    Memory.read (Loader.storeFrom a image m) (a + i) = image[i] := by
  induction image generalizing a i m with
  | nil => exact absurd hi (Nat.not_lt_zero i)
  | cons v rest ih =>
    rw [List.length_cons] at hfit hi
    cases i with
    | zero =>
      calc Memory.read (Loader.storeFrom (a + 1) rest (m.write a v)) a
          _ = Memory.read (m.write a v) a := Loader.read_storeFrom_outside rest _ (by omega)
          _ = v := Memory.read_write_same hm (by omega) v
    | succ j =>
      have hj := ih (a := a + 1) (i := j) (Memory.write_wf hm a v) (by omega) (by omega)
      rwa [Nat.add_right_comm a 1 j] at hj

/-! ### The start of a run -/

theorem State.reset_reg (r : RegIndex) : State.reset.reg r = 0 := by
  simp [State.reg, State.reset, Config.resetRegister]

theorem State.reset_memRead (a : Nat) : State.reset.memRead a = 0 := rfl

/-- Loading an image touches no register. -/
theorem Loader.startState_reg (image : List Word) (r : RegIndex) :
    (Loader.startState image).reg r = State.reset.reg r := rfl

/-- At the start of a run the image stands in memory from address 0 on. -/
theorem Loader.startState_memRead_inside {image : List Word} (hfit : image.length ≤ 8192) {a : Nat}
    (ha : a < image.length) : (Loader.startState image).memRead a = image[a] := by
  have h := Loader.read_storeFrom_inside (a := 0) image State.reset_mem_wf (by omega) ha
  rwa [Nat.zero_add] at h

/-- Above the image, memory reads as it does after reset. -/
theorem Loader.startState_memRead_above (image : List Word) {a : Nat} (ha : image.length ≤ a) :
    (Loader.startState image).memRead a = State.reset.memRead a :=
  Loader.read_storeFrom_outside image State.reset.mem (.inr (by omega))

/-- An image that fits the memory starts a run (70_reset_and_hazards.md R166, R169). -/
theorem Loader.start_of_le {image : List Word} (hfit : image.length ≤ 8192) :
    Loader.start image = some (Loader.startState image) := if_pos hfit

/-- Settles O46: the start state is the reset state but for the memory, which holds the image and 0
above it. -/
theorem resetGivesEveryPieceItsValue : Obligations.ResetGivesEveryPieceItsValue := by
  unfold Obligations.ResetGivesEveryPieceItsValue
  intro image hfit
  refine ⟨Loader.startState image, Loader.start_of_le hfit, fun r => ?regs, fun a ha => ?inside,
    fun a ha _ => ?above, rfl, rfl, rfl⟩
  case regs => rw [Loader.startState_reg, State.reset_reg]
  case inside => exact Loader.startState_memRead_inside hfit ha
  case above => rw [Loader.startState_memRead_above image ha, State.reset_memRead]

end Sys2Proof.Machine
end

section
/-! Proofs about encoding and execution together (spec 30_encoding.md R68): every word decodes to a
well-formed instruction, and every instruction answers a next state. -/

namespace Sys2Proof

/-- The value of a 4-bit field is an immediate in range (30_encoding.md R65). -/
theorem immediateInRange_field (imm : Fin 16) : immediateInRange imm.val = true :=
  decide_eq_true (Nat.le_of_lt_succ imm.isLt)

/-- The opcode map has an instruction for each of the eight opcodes. Four of them carry an immediate,
which is a field's value; the other four carry registers only. -/
theorem selectInstr_wellFormed (f : Fields) : (selectInstr f).WellFormed := by
  unfold selectInstr
  split
  case h_2 | h_4 | h_5 | h_6 => exact immediateInRange_field f.imm
  case h_1 | h_3 | h_7 | h_8 => rfl

theorem decode_zero : decode 0 = .halt := if_pos rfl

theorem decode_of_ne_zero {w : Word} (h : w ≠ 0) : decode w = selectInstr (wordFields w) := if_neg h

/-- The decoder refuses no word: what it answers can always be written (30_encoding.md R68). -/
theorem decode_wellFormed (w : Word) : (decode w).WellFormed := by
  by_cases h : w = 0
  · rw [h, decode_zero]; rfl
  · rw [decode_of_ne_zero h]; exact selectInstr_wellFormed _

end Sys2Proof

namespace Sys2Proof.Machine

/-! ### Every instruction answers a next state -/

/-- `lw` answers a next state on both sides of its range check: the fault is a state too. -/
theorem execLw_next (rd rs1 : RegIndex) (imm : Nat) (s : State) :
    ∃ t, execLw rd rs1 imm s = .next t := by
  unfold execLw
  split
  · exact ⟨_, rfl⟩
  · exact ⟨_, rfl⟩

/-- `sw` answers a next state on both sides of its range check. -/
theorem execSw_next (rd rs1 : RegIndex) (imm : Nat) (s : State) :
    ∃ t, execSw rd rs1 imm s = .next t := by
  unfold execSw
  split
  · exact ⟨_, rfl⟩
  · exact ⟨_, rfl⟩

/-- `jeq` answers a next state when it is not taken, when it jumps, and when its target faults. -/
theorem execJeq_next (rd rs1 rs2 : RegIndex) (s : State) :
    ∃ t, execJeq rd rs1 rs2 s = .next t := by
  unfold execJeq
  split
  · split
    · exact ⟨_, rfl⟩
    · exact ⟨_, rfl⟩
  · exact ⟨_, rfl⟩

/-- No instruction stops the machine with a model fault or a refusal, in any state. -/
theorem exec_next (i : Instr) (s : State) : ∃ t, exec i s = .next t := by
  cases i with
  | halt => exact ⟨s.enterHalted, rfl⟩
  | add | addi | sub | subi | slt => exact ⟨_, rfl⟩
  | lw rd rs1 imm => exact execLw_next rd rs1 imm s
  | sw rd rs1 imm => exact execSw_next rd rs1 imm s
  | jeq rd rs1 rs2 => exact execJeq_next rd rs1 rs2 s

/-! ### The step from a RUNNING state -/

theorem step_of_running {s : State} (h : s.status = .running) : step s = runningStep s := by
  unfold step
  rw [h]

theorem runningStep_of_le {s : State} (h : s.pc ≤ 8191) :
    runningStep s = exec (decode (s.memRead s.pc)) s := by
  unfold runningStep
  rw [State.fetch_of_le h]

/-- Where the fetch is in range, a step executes the decoded word at `pc`
(40_execution_cycle.md R80). -/
theorem step_of_running_of_le {s : State} (hrun : s.status = .running) (hpc : s.pc ≤ 8191) :
    step s = exec (decode (s.memRead s.pc)) s :=
  (step_of_running hrun).trans (runningStep_of_le hpc)

/-- Settles O30: the fetched word decodes to a well-formed instruction, and the step is that
instruction's meaning, which is always a next state. -/
theorem everyWordExecutes : Obligations.EveryWordExecutes := by
  unfold Obligations.EveryWordExecutes
  rintro s w hrun hpc rfl
  obtain ⟨t, ht⟩ := exec_next (decode (s.memRead s.pc)) s
  exact ⟨decode_wellFormed _, t, (step_of_running_of_le hrun hpc).trans ht, ht⟩

end Sys2Proof.Machine
end

section
/-! Proofs about the execution cycle (spec 40_execution_cycle.md): which states a step is taken from
(R80), and which instruction it runs there. -/

namespace Sys2Proof.Machine

/-- HALTED has no step: the model stops there under the name of log entry 4 (10_state.md R29). -/
theorem step_of_halted {s : State} (h : s.status = .halted) :
    step s = .fault .noStepFromHalted := by
  unfold step
  rw [h]

/-- FAULTED has no step, whatever the record it holds (10_state.md R29). -/
theorem step_of_faulted {s : State} {record : FaultRecord} (h : s.status = .faulted record) :
    step s = .fault .noStepFromFaulted := by
  unfold step
  rw [h]

/-- Where a step answers a next state, it was taken from a RUNNING one (R80). -/
theorem running_of_step_next {s t : State} (h : step s = .next t) : s.status = .running := by
  cases hstatus : s.status with
  | running => rfl
  | halted => nomatch (step_of_halted hstatus).symm.trans h
  | faulted record => nomatch (step_of_faulted hstatus).symm.trans h

/-- Settles O27: from a RUNNING state with the fetch in range the step is the decoded instruction's
meaning, and from no other state is a step taken. -/
theorem stepRunsTheDecodedInstruction : Obligations.StepRunsTheDecodedInstruction := by
  unfold Obligations.StepRunsTheDecodedInstruction
  constructor
  · rintro s i hrun hpc rfl -
    exact step_of_running_of_le hrun hpc
  · exact fun _ _ => running_of_step_next

end Sys2Proof.Machine
end

section
/-! Proofs about the arithmetic instructions (spec 41_arithmetic.md): which words they are, the value each
writes, and that they change nothing else (R100 to R103). -/

namespace Sys2Proof

/-! ### The words of one opcode -/

/-- The halt word's opcode is 000, so a word of any other opcode goes by the opcode map
(30_encoding.md R64). -/
theorem ne_zero_of_opcode {w : Word} {k : Fin 8} (h : (wordFields w).opcode = k) (hk : k ≠ 0) :
    w ≠ 0 := by
  rintro rfl
  exact hk h.symm

/-- With the opcode known, the map's answer computes; the other fields stay as the word gives them
(30_encoding.md R63). -/
theorem decode_of_opcode {w : Word} {k : Fin 8} (hw : w ≠ 0) (h : (wordFields w).opcode = k) :
    decode w = selectInstr { wordFields w with opcode := k } := by
  rw [decode_of_ne_zero hw, ← h]

theorem decode_of_opcode_ne_zero {w : Word} {k : Fin 8} (h : (wordFields w).opcode = k)
    (hk : k ≠ 0) : decode w = selectInstr { wordFields w with opcode := k } :=
  decode_of_opcode (ne_zero_of_opcode h hk) h

end Sys2Proof

namespace Sys2Proof.Machine

/-! ### The meaning of an instruction, by the values of its operands -/

theorem exec_add (rd rs1 rs2 : RegIndex) (s : State) :
    exec (.add rd rs1 rs2) s =
      finishWithReg rd (wrapSum (s.reg rs1).toNat (s.reg rs2).toNat) s := rfl

theorem exec_sub (rd rs1 rs2 : RegIndex) (s : State) :
    exec (.sub rd rs1 rs2) s =
      finishWithReg rd (wrapDifference (s.reg rs1).toNat (s.reg rs2).toNat) s := rfl

theorem exec_subi (rd rs1 : RegIndex) (imm : Nat) (s : State) :
    exec (.subi rd rs1 imm) s = finishWithReg rd (wrapDifference (s.reg rs1).toNat imm) s := rfl

/-- What an instruction that ends with a register result does to a RUNNING state: `x[rd]` holds the
result, `pc` advances, and everything else is kept. -/
theorem exec_next_of_finishWithReg {i : Instr} {rd : RegIndex} {v : Word} {s : State}
    (hexec : exec i s = finishWithReg rd v s) (hrun : s.status = .running) :
    ∃ t, exec i s = .next t ∧ t.reg rd = v ∧
      SameRegsBut rd s t ∧ SameMem s t ∧ t.pc = s.pc + 1 ∧ t.status = .running := by
  obtain ⟨t, hnext, hreg, hregs, hmem, -, hpc, hstatus⟩ := finishWithReg_spec rd v s
  exact ⟨t, hexec.trans hnext, hreg, hregs, hmem, hpc, hstatus.trans hrun⟩

/-! ### The four instructions -/

/-- Settles O11: opcode 000 is `add` on every word but 0x0000, and the result is the wrapped sum. -/
theorem addWritesWrappedSum : Obligations.AddWritesWrappedSum := by
  unfold Obligations.AddWritesWrappedSum
  constructor
  · exact fun w hw hop => decode_of_opcode hw hop
  · intro rd rs1 rs2 s hrun
    obtain ⟨t, hnext, hreg, hframe⟩ := exec_next_of_finishWithReg (exec_add rd rs1 rs2 s) hrun
    exact ⟨t, hnext, by rw [hreg, wrapSum_toNat], hframe⟩

/-- Settles O12: the result is the wrapped sum with the zero-extended immediate. -/
theorem addiWritesWrappedSum : Obligations.AddiWritesWrappedSum := by
  unfold Obligations.AddiWritesWrappedSum
  constructor
  · exact fun w hop => decode_of_opcode_ne_zero hop (by decide)
  · intro rd rs1 imm s _ hrun
    obtain ⟨t, hnext, hreg, hframe⟩ := exec_next_of_finishWithReg (exec_addi rd rs1 imm s) hrun
    exact ⟨t, hnext, by rw [hreg, wrapSum_toNat], hframe⟩

/-- Settles O13: the result is the wrapped difference, as an integer remainder and not a truncated
subtraction of naturals. -/
theorem subWritesWrappedDifference : Obligations.SubWritesWrappedDifference := by
  unfold Obligations.SubWritesWrappedDifference
  constructor
  · exact fun w hop => decode_of_opcode_ne_zero hop (by decide)
  · intro rd rs1 rs2 s hrun
    obtain ⟨t, hnext, hreg, hframe⟩ := exec_next_of_finishWithReg (exec_sub rd rs1 rs2 s) hrun
    exact ⟨t, hnext, by rw [hreg, wrapDifference_toNat], hframe⟩

/-- Settles O14: the result is the wrapped difference with the zero-extended immediate. -/
theorem subiWritesWrappedDifference : Obligations.SubiWritesWrappedDifference := by
  unfold Obligations.SubiWritesWrappedDifference
  constructor
  · exact fun w hop => decode_of_opcode_ne_zero hop (by decide)
  · intro rd rs1 imm s _ hrun
    obtain ⟨t, hnext, hreg, hframe⟩ := exec_next_of_finishWithReg (exec_subi rd rs1 imm s) hrun
    exact ⟨t, hnext, by rw [hreg, wrapDifference_toNat], hframe⟩

end Sys2Proof.Machine
end

section
/-! Proofs about the image lines the Loader accepts (spec 70_reset_and_hazards.md): the addresses 0, 1,
2, ... in order (R165), as many of them as the memory has words (R166). -/

namespace Sys2Proof.Machine

/-- A line is accepted where it carries the address due there, within the capacity, and the lines after
it are accepted; its word then stands first in the image (R165, R166). -/
theorem Loader.checkLines_cons_loaded_iff (n : Nat) (line : ImageLine)
    (rest : List (Option ImageLine)) (image : List Word) :
    checkLines n (some line :: rest) = .loaded image ↔
      line.address = n ∧ n < 8192 ∧
        ∃ tail, checkLines (n + 1) rest = .loaded tail ∧ image = line.word :: tail := by
  rw [checkLines, Config.memWords]
  split
  next hcapacity =>
    constructor
    · exact nofun
    · rintro ⟨haddress, hroom, -⟩; omega
  next hcapacity =>
    split
    next hgap =>
      constructor
      · exact nofun
      · exact fun h => absurd h.1 hgap
    next hdue =>
      cases checkLines (n + 1) rest with
      | failed error => simp
      | loaded tail =>
        have hroom : line.address = n ∧ n < 8192 := by omega
        simp [hroom, eq_comm]

/-- The lines from address `n` on are accepted exactly where their addresses are `n`, `n + 1`, ... and
end within the memory; the image is then their words in order. -/
theorem Loader.checkLines_loaded_iff (lines : List ImageLine) {n : Nat} (hn : n ≤ 8192)
    (image : List Word) :
    checkLines n (lines.map some) = .loaded image ↔
      (lines.map (·.address) = List.range' n lines.length ∧ n + lines.length ≤ 8192) ∧
        image = lines.map (·.word) := by
  induction lines generalizing n image with
  | nil => simp [checkLines, hn, eq_comm]
  | cons line rest ih =>
    rw [List.map_cons, Loader.checkLines_cons_loaded_iff, List.map_cons, List.map_cons,
      List.length_cons, List.range'_succ, List.cons_eq_cons]
    constructor
    · rintro ⟨haddress, hroom, tail, htail, rfl⟩
      obtain ⟨⟨haddresses, hfit⟩, rfl⟩ := (ih hroom tail).mp htail
      exact ⟨⟨⟨haddress, haddresses⟩, by omega⟩, rfl⟩
    · rintro ⟨⟨⟨haddress, haddresses⟩, hfit⟩, rfl⟩
      have hroom : n < 8192 := by omega
      exact ⟨haddress, hroom, _, (ih hroom _).mpr ⟨⟨haddresses, by omega⟩, rfl⟩, rfl⟩

/-- Settles O48: the criterion for acceptance from address 0 on; lines that are not accepted fail, since
checking has no third result. -/
theorem loaderAcceptsExactlyContiguousAddresses :
    Obligations.LoaderAcceptsExactlyContiguousAddresses := by
  unfold Obligations.LoaderAcceptsExactlyContiguousAddresses
  intro lines
  have haccepts := Loader.checkLines_loaded_iff lines (Nat.zero_le 8192)
  rw [← List.range_eq_range', Nat.zero_add] at haccepts
  constructor
  · exact fun hcontiguous => (haccepts _).mpr ⟨hcontiguous, rfl⟩
  · intro hnot
    cases hresult : Loader.checkLines 0 (lines.map some) with
    | loaded image => exact absurd ((haccepts image).mp hresult).1 hnot
    | failed error => exact ⟨error, rfl⟩

end Sys2Proof.Machine
end

section
/-! Proofs about the encoding (spec 30_encoding.md): the fields of a word (R61, R62), what decodes to what
(R63, R64, R67, R70), and the encoder as the decoder's right inverse (R72). -/

namespace Sys2Proof

/-! ### The fields of a word -/

/-- The field of width `n` at position `lo`, as a number, has the bits of the word from `lo` on. -/
theorem testBit_field (w : Word) (lo : Nat) {n j : Nat} (hj : j < n) :
    (w.toNat / 2 ^ lo % 2 ^ n).testBit j = w.getLsbD (lo + j) := by
  rw [Nat.testBit_mod_two_pow, Nat.testBit_div_two_pow, decide_eq_true hj, Bool.true_and,
    Nat.add_comm, BitVec.testBit_toNat]

theorem testBit_threeBits (w : Word) (lo : Nat) {j : Nat} (hj : j < 3) :
    (threeBits w lo).val.testBit j = w.getLsbD (lo + j) := testBit_field w lo hj

theorem testBit_fourBits (w : Word) (lo : Nat) {j : Nat} (hj : j < 4) :
    (fourBits w lo).val.testBit j = w.getLsbD (lo + j) := testBit_field w lo hj

/-- Settles O1: a field is a run of bits of the word, from its lowest position on. -/
theorem fieldsStandAtTheirBitPositions : Obligations.FieldsStandAtTheirBitPositions := by
  unfold Obligations.FieldsStandAtTheirBitPositions
  refine fun w j => ⟨fun hj => ⟨?opcode, ?rd, ?rs1, ?rs2⟩, fun hj => ?imm⟩
  case opcode => exact testBit_threeBits w 13 hj
  case rd => exact testBit_threeBits w 10 hj
  case rs1 => exact testBit_threeBits w 7 hj
  case rs2 => exact testBit_threeBits w 4 hj
  case imm => exact (testBit_fourBits w 0 hj).trans (by rw [Nat.zero_add])

/-- Packing keeps every field: no two of them overlap. -/
theorem wordFields_packFields (f : Fields) : wordFields (packFields f) = f := by
  obtain ⟨opcode, rd, rs1, rs2, imm⟩ := f
  simp only [wordFields, packFields, threeBits, fourBits, BitVec.toNat_ofNat, Fields.mk.injEq,
    Fin.ext_iff]
  omega

/-- The fields keep every bit: together they cover the word. -/
theorem packFields_wordFields (w : Word) : packFields (wordFields w) = w := by
  apply BitVec.eq_of_toNat_eq
  simp only [wordFields, packFields, threeBits, fourBits, BitVec.toNat_ofNat]
  omega

/-- Settles O2: reading the fields and packing them are inverse to each other. -/
theorem wordAndFieldTupleDetermineEachOther :
    Obligations.WordAndFieldTupleDetermineEachOther := by
  unfold Obligations.WordAndFieldTupleDetermineEachOther
  intro w f
  constructor
  · rintro rfl; exact packFields_wordFields w
  · rintro rfl; exact wordFields_packFields f

/-- The opcode is the number of the word's block of 8192 words. -/
theorem opcode_eq_iff (w : Word) (k : Fin 8) :
    (wordFields w).opcode = k ↔ k.val * 8192 ≤ w.toNat ∧ w.toNat < (k.val + 1) * 8192 := by
  simp only [wordFields, threeBits, Fin.ext_iff]
  omega

/-! ### Which words decode to what -/

/-- Settles O3. -/
theorem decodedInstructionIsWellFormed : Obligations.DecodedInstructionIsWellFormed := by
  unfold Obligations.DecodedInstructionIsWellFormed
  exact decode_wellFormed

/-- The opcode map never answers `halt`: that is the zero word's alone (30_encoding.md R64). -/
theorem selectInstr_ne_halt (f : Fields) : selectInstr f ≠ .halt := by
  unfold selectInstr
  split <;> exact nofun

theorem decode_eq_halt_iff (w : Word) : decode w = .halt ↔ w = 0 := by
  constructor
  · intro hdecode
    by_contra hw
    exact selectInstr_ne_halt _ ((decode_of_ne_zero hw).symm.trans hdecode)
  · rintro rfl; exact decode_zero

/-- Of the opcode map's instructions, `add` has opcode 000. -/
theorem selectInstr_eq_add_iff (f : Fields) (rd rs1 rs2 : RegIndex) :
    selectInstr f = .add rd rs1 rs2 ↔
      f.opcode = 0 ∧ f.rd = rd ∧ f.rs1 = rs1 ∧ f.rs2 = rs2 := by
  constructor
  · unfold selectInstr
    split
    case h_1 hop =>
      intro h
      injection h with hrd hrs1 hrs2
      exact ⟨hop, hrd, hrs1, hrs2⟩
    all_goals exact nofun
  · rintro ⟨hop, rfl, rfl, rfl⟩
    simp [selectInstr, hop]

/-- Settles O9: the opcode and the three register fields are zero exactly below 16, and there only the
zero word is not `add`. -/
theorem addOfRegisterZeroHasFifteenWords : Obligations.AddOfRegisterZeroHasFifteenWords := by
  unfold Obligations.AddOfRegisterZeroHasFifteenWords
  intro w
  have hfields : selectInstr (wordFields w) = .add 0 0 0 ↔ w.toNat ≤ 15 := by
    rw [selectInstr_eq_add_iff]
    simp only [wordFields, threeBits, Fin.ext_iff, Fin.val_zero]
    omega
  by_cases hw : w = 0
  · rw [hw, decode_zero]; decide
  · have hpos : w.toNat ≠ 0 := fun h => hw (BitVec.eq_of_toNat_eq h)
    rw [decode_of_ne_zero hw, hfields]
    omega

/-- The mnemonic of a nonzero word in the block of 8192 words that opcode `k` names. -/
theorem mnemonic_decode_of_block {w : Word} (k : Fin 8) (hpos : w.toNat ≠ 0)
    (hlow : k.val * 8192 ≤ w.toNat) (hhigh : w.toNat < (k.val + 1) * 8192) :
    (decode w).mnemonic = (selectInstr { wordFields w with opcode := k }).mnemonic := by
  have hw : w ≠ 0 := fun h => hpos (by rw [h]; rfl)
  rw [decode_of_opcode hw ((opcode_eq_iff w k).mpr ⟨hlow, hhigh⟩)]

/-- Settles O6: one block of 8192 words after another. -/
theorem wordsSplitAmongInstructionsByRange : Obligations.WordsSplitAmongInstructionsByRange := by
  unfold Obligations.WordsSplitAmongInstructionsByRange
  intro w
  have hword := w.isLt
  split_ifs with hzero hadd haddi hsub hsubi hlw hsw hslt
  · rw [BitVec.eq_of_toNat_eq (y := 0) hzero, decode_zero]; rfl
  · exact mnemonic_decode_of_block 0 hzero (Nat.zero_le _) (Nat.lt_succ_of_le hadd)
  · exact mnemonic_decode_of_block 1 hzero (Nat.lt_of_not_le hadd) (Nat.lt_succ_of_le haddi)
  · exact mnemonic_decode_of_block 2 hzero (Nat.lt_of_not_le haddi) (Nat.lt_succ_of_le hsub)
  · exact mnemonic_decode_of_block 3 hzero (Nat.lt_of_not_le hsub) (Nat.lt_succ_of_le hsubi)
  · exact mnemonic_decode_of_block 4 hzero (Nat.lt_of_not_le hsubi) (Nat.lt_succ_of_le hlw)
  · exact mnemonic_decode_of_block 5 hzero (Nat.lt_of_not_le hlw) (Nat.lt_succ_of_le hsw)
  · exact mnemonic_decode_of_block 6 hzero (Nat.lt_of_not_le hsw) (Nat.lt_succ_of_le hslt)
  · exact mnemonic_decode_of_block 7 hzero (Nat.lt_of_not_le hslt) hword

/-- The opcode map reads `rs2` for the opcodes 0, 2, 6 and 7 and `imm` for the others, and never both
(30_encoding.md R63, R67). -/
theorem selectInstr_congr {f g : Fields} (hop : f.opcode = g.opcode) (hrd : f.rd = g.rd)
    (hrs1 : f.rs1 = g.rs1) (hrs2 : f.opcode ∈ [0, 2, 6, 7] → f.rs2 = g.rs2)
    (himm : f.opcode ∈ [1, 3, 4, 5] → f.imm = g.imm) : selectInstr f = selectInstr g := by
  obtain ⟨opcode, rd, rs1, rs2, imm⟩ := f
  obtain ⟨_, _, _, rs2', imm'⟩ := g
  dsimp only at hop hrd hrs1
  subst hop hrd hrs1
  match opcode with
  | 0 | 2 | 6 | 7 =>
    obtain rfl : rs2 = rs2' := hrs2 (by simp)
    rfl
  | 1 | 3 | 4 | 5 =>
    obtain rfl : imm = imm' := himm (by simp)
    rfl

/-- Settles O8: both words go by the opcode map, which does not look at the ignored fields. -/
theorem ignoredBitsDoNotChangeTheInstruction :
    Obligations.IgnoredBitsDoNotChangeTheInstruction := by
  unfold Obligations.IgnoredBitsDoNotChangeTheInstruction
  intro v w hv hw hop hrd hrs1 hrs2 himm
  rw [decode_of_ne_zero hv, decode_of_ne_zero hw]
  exact selectInstr_congr hop hrd hrs1 hrs2 himm

/-- Settles O10: each word is evaluated. -/
theorem writtenOutWordsDecode : Obligations.WrittenOutWordsDecode := by
  unfold Obligations.WrittenOutWordsDecode
  decide

/-! ### The encoder -/

theorem immediateInRange_iff (imm : Nat) : immediateInRange imm = true ↔ imm ≤ 15 :=
  decide_eq_true_iff

theorem encode_of_wellFormed {i : Instr} (h : i.WellFormed) : encode i = some (encodeWord i) :=
  if_pos h

/-- The encoder's refusal is the check of the instruction, and nothing else (30_encoding.md R72). -/
theorem encode_eq_none_iff (i : Instr) : encode i = none ↔ ¬ i.WellFormed := by
  simp [encode]

/-- Settles O5: four forms check the immediate, the other five check nothing. -/
theorem encoderRefusesExactlyWideImmediates : Obligations.EncoderRefusesExactlyWideImmediates := by
  unfold Obligations.EncoderRefusesExactlyWideImmediates
  intro rd rs1 rs2 imm
  have hwide : ¬ immediateInRange imm = true ↔ 15 < imm := by rw [immediateInRange_iff, Nat.not_le]
  simp only [encode_eq_none_iff, ne_eq, not_not]
  exact ⟨hwide, hwide, hwide, hwide, rfl, rfl, rfl, rfl, rfl⟩

/-- A word packed from fields decodes by the opcode map, unless it is the zero word. -/
theorem decode_packFields {f : Fields} (h : packFields f ≠ 0) :
    decode (packFields f) = selectInstr f := by
  rw [decode_of_ne_zero h, wordFields_packFields]

theorem decode_encodeRegs {opcode : Fin 8} (h : opcode ≠ 0) (rd rs1 rs2 : RegIndex) :
    decode (encodeRegs opcode rd rs1 rs2) = selectInstr ⟨opcode, rd, rs1, rs2, 0⟩ :=
  decode_packFields (Laws.packFields_ne_zero h)

theorem decode_encodeImm {opcode : Fin 8} (h : opcode ≠ 0) (rd rs1 : RegIndex) (imm : Nat) :
    decode (encodeImm opcode rd rs1 imm) = selectInstr ⟨opcode, rd, rs1, 0, Fin.ofNat 16 imm⟩ :=
  decode_packFields (Laws.packFields_ne_zero h)

/-- `add $0, $0, $0` is written with an ignored `imm` of 1, which the decoder drops (R70). -/
theorem decode_encodeAdd (rd rs1 rs2 : RegIndex) :
    decode (encodeAdd rd rs1 rs2) = .add rd rs1 rs2 := by
  have hne := Laws.encodeAdd_ne_zero rd rs1 rs2
  by_cases hzero : rd = 0 ∧ rs1 = 0 ∧ rs2 = 0
  · obtain ⟨rfl, rfl, rfl⟩ := hzero
    decide
  · rw [encodeAdd, if_neg hzero] at hne ⊢
    exact decode_packFields hne

/-- An immediate in range is the value of its 4-bit field. -/
theorem val_ofNat_of_immediateInRange {imm : Nat} (h : immediateInRange imm = true) :
    (Fin.ofNat 16 imm).val = imm :=
  Nat.mod_eq_of_lt (Nat.lt_succ_of_le ((immediateInRange_iff imm).mp h))

/-- The decoder reads back the instruction that a word was written for. -/
theorem decode_encodeWord {i : Instr} (h : i.WellFormed) : decode (encodeWord i) = i := by
  cases i with
  | halt => exact decode_zero
  | add rd rs1 rs2 => exact decode_encodeAdd rd rs1 rs2
  | sub | slt | jeq => exact decode_encodeRegs (by decide) _ _ _
  | addi rd rs1 imm | subi rd rs1 imm | lw rd rs1 imm | sw rd rs1 imm =>
    refine (decode_encodeImm (by decide) rd rs1 imm).trans ?_
    simp only [selectInstr, val_ofNat_of_immediateInRange h]

/-- Settles O4: the word is the one the encoder's table gives. -/
theorem encodedInstructionDecodesToItself : Obligations.EncodedInstructionDecodesToItself := by
  unfold Obligations.EncodedInstructionDecodesToItself
  exact fun i h => ⟨encodeWord i, encode_of_wellFormed h, decode_encodeWord h⟩

/-! ### The opcode table -/

/-- Every row but the one of `halt` tests the opcode bits alone (30_encoding.md R74). -/
theorem opcodeTable_mask : ∀ row ∈ opcodeTable,
    row.mask = 0xE000#16 ∨ row.mask = 0xFFFF#16 ∧ row.pattern = 0 := by decide

/-- The only word a row excepts is the zero word (30_encoding.md R74). -/
theorem opcodeTable_except : ∀ row ∈ opcodeTable, row.except = [] ∨ row.except = [0] := by decide

/-- The opcode mask keeps the bits from 13 up. -/
theorem and_opcodeMask (w : Word) : w &&& 0xE000#16 = (w >>> 13) <<< 13 := by
  ext i hi
  interval_cases i <;> simp

/-- Under the opcode mask a word is its opcode, in place. -/
theorem and_opcodeMask_of_opcode {w : Word} {k : Fin 8} (h : (wordFields w).opcode = k) :
    w &&& 0xE000#16 = BitVec.ofNat 16 (k.val * 8192) := by
  have hblock := (opcode_eq_iff w k).mp h
  have hshift : w.toNat / 8192 = k.val := by omega
  rw [and_opcodeMask]
  apply BitVec.eq_of_toNat_eq
  simp [Nat.shiftLeft_eq, Nat.shiftRight_eq_div_pow, hshift]

/-- A table row tells two nonzero words apart by their opcodes only: the row of `halt` fits neither,
and every other row tests the opcode bits. -/
theorem rowFits_congr {v w : Word} (hv : v ≠ 0) (hw : w ≠ 0)
    (hop : (wordFields v).opcode = (wordFields w).opcode) {row : TableRow}
    (hrow : row ∈ opcodeTable) : rowFits row v = rowFits row w := by
  unfold rowFits
  obtain hmask | ⟨hmask, hpattern⟩ := opcodeTable_mask row hrow
  · rw [hmask, and_opcodeMask_of_opcode hop, and_opcodeMask_of_opcode rfl]
  · have hall : ∀ u : Word, u &&& 0xFFFF#16 = u := fun _ => BitVec.and_allOnes
    rw [hmask, hpattern, hall, hall, beq_false_of_ne hv, beq_false_of_ne hw]

theorem except_contains_eq_false {w : Word} (hw : w ≠ 0) {row : TableRow}
    (hrow : row ∈ opcodeTable) : row.except.contains w = false := by
  obtain hexcept | hexcept := opcodeTable_except row hrow
  · rw [hexcept]; rfl
  · simpa [hexcept] using hw

theorem rowMatches_congr {v w : Word} (hv : v ≠ 0) (hw : w ≠ 0)
    (hop : (wordFields v).opcode = (wordFields w).opcode) {row : TableRow}
    (hrow : row ∈ opcodeTable) : rowMatches row v = rowMatches row w := by
  rw [rowMatches, rowMatches, rowFits_congr hv hw hop hrow, except_contains_eq_false hv hrow,
    except_contains_eq_false hw hrow]

/-- The mnemonic of a nonzero word is a matter of its opcode. -/
theorem mnemonic_decode_congr {v w : Word} (hv : v ≠ 0) (hw : w ≠ 0)
    (hop : (wordFields v).opcode = (wordFields w).opcode) :
    (decode v).mnemonic = (decode w).mnemonic := by
  rw [decode_of_ne_zero hv, decode_of_ne_zero hw]
  unfold selectInstr
  rw [hop]
  split <;> rfl

/-- The opcode table selects the row of the instruction that the word decodes to, by its exceptions
and by its priorities alike (30_encoding.md R74). -/
def TableSelectsDecoded (w : Word) : Prop :=
  (opcodeTable.filter (fun row => rowMatches row w)).map (·.mnemonic) = [(decode w).mnemonic] ∧
    (winningRow w).map (·.mnemonic) = some (decode w).mnemonic

/-- Both sides of the table's selection depend on the opcode of a nonzero word only. -/
theorem TableSelectsDecoded.congr {v w : Word} (hv : v ≠ 0) (hw : w ≠ 0)
    (hop : (wordFields v).opcode = (wordFields w).opcode) (h : TableSelectsDecoded v) :
    TableSelectsDecoded w := by
  have hmatches : opcodeTable.filter (fun row => rowMatches row v) =
      opcodeTable.filter (fun row => rowMatches row w) :=
    List.filter_congr fun _ hrow => rowMatches_congr hv hw hop hrow
  have hwinner : winningRow v = winningRow w :=
    congrArg (List.foldl preferRow none)
      (List.filter_congr fun _ hrow => rowFits_congr hv hw hop hrow)
  unfold TableSelectsDecoded at h ⊢
  rwa [hmatches, hwinner, mnemonic_decode_congr hv hw hop] at h

/-- A nonzero word of the given opcode. -/
def wordOfOpcode (k : Fin 8) : Word := packFields ⟨k, 0, 0, 0, 1⟩

theorem wordOfOpcode_ne_zero : ∀ k, wordOfOpcode k ≠ 0 := by decide

theorem wordOfOpcode_opcode (k : Fin 8) : (wordFields (wordOfOpcode k)).opcode = k :=
  Laws.packFields_opcode _

theorem tableSelectsDecoded_wordOfOpcode (k : Fin 8) : TableSelectsDecoded (wordOfOpcode k) := by
  unfold TableSelectsDecoded
  revert k
  decide

/-- Settles O7: the zero word and one word of each opcode are evaluated, and a nonzero word fares as
the one of its opcode. -/
theorem opcodeTableSelectsTheDecodedInstruction :
    Obligations.OpcodeTableSelectsTheDecodedInstruction := by
  unfold Obligations.OpcodeTableSelectsTheDecodedInstruction
  intro w
  by_cases hw : w = 0
  · rw [hw]; decide
  · exact (tableSelectsDecoded_wordOfOpcode (wordFields w).opcode).congr (wordOfOpcode_ne_zero _) hw
      (wordOfOpcode_opcode _)

end Sys2Proof
end

section
/-! Proofs about single instructions (spec 41_arithmetic.md to 45_halt.md): the signed reading of the
arithmetic results (R104), `slt` (R120), `lw` and `sw` on both sides of their range check (R111,
R113), `jeq` in its three forms (R125), and `halt` (R130). -/

namespace Sys2Proof.Machine

/-! ### The meaning of an instruction, by the values of its operands -/

theorem exec_halt (s : State) : exec .halt s = .next s.enterHalted := rfl

theorem exec_slt (rd rs1 rs2 : RegIndex) (s : State) :
    exec (.slt rd rs1 rs2) s =
      finishWithReg rd (lessThanWord (s.reg rs1).toNat (s.reg rs2).toNat) s := rfl

section
variable {rd rs1 : RegIndex} {imm : Nat} {s : State}

theorem exec_lw_of_le (h : (s.reg rs1).toNat + imm ≤ 8191) :
    exec (.lw rd rs1 imm) s = finishWithReg rd (s.memRead ((s.reg rs1).toNat + imm)) s :=
  if_neg (Nat.not_lt.mpr h)

theorem exec_lw_of_gt (h : 8191 < (s.reg rs1).toNat + imm) :
    exec (.lw rd rs1 imm) s = .next (s.raiseFault .loadOutOfRange ((s.reg rs1).toNat + imm)) :=
  if_pos h

theorem exec_sw_of_le (h : (s.reg rs1).toNat + imm ≤ 8191) :
    exec (.sw rd rs1 imm) s =
      .next (s.memWrite ((s.reg rs1).toNat + imm) (s.reg rd)).advancePc :=
  if_neg (Nat.not_lt.mpr h)

theorem exec_sw_of_gt (h : 8191 < (s.reg rs1).toNat + imm) :
    exec (.sw rd rs1 imm) s = .next (s.raiseFault .storeOutOfRange ((s.reg rs1).toNat + imm)) :=
  if_pos h

end

section
variable {rd rs1 rs2 : RegIndex} {s : State}

theorem exec_jeq_of_ne (h : s.reg rs1 ≠ s.reg rs2) :
    exec (.jeq rd rs1 rs2) s = .next s.advancePc :=
  if_neg (mt (s.regsEqual_iff rs1 rs2).mp h)

theorem exec_jeq_of_eq_of_le (h : s.reg rs1 = s.reg rs2) (hrange : (s.reg rd).toNat ≤ 8191) :
    exec (.jeq rd rs1 rs2) s = .next (s.setPc (s.reg rd).toNat) :=
  (if_pos ((s.regsEqual_iff rs1 rs2).mpr h)).trans (if_neg (Nat.not_lt.mpr hrange))

theorem exec_jeq_of_eq_of_gt (h : s.reg rs1 = s.reg rs2) (hrange : 8191 < (s.reg rd).toNat) :
    exec (.jeq rd rs1 rs2) s =
      .next (s.raiseFault .jumpTargetOutOfRange (s.reg rd).toNat) :=
  (if_pos ((s.regsEqual_iff rs1 rs2).mpr h)).trans (if_pos hrange)

end

/-! ### The signed reading of the arithmetic results -/

/-- A word's unsigned value is its signed value, up to a multiple of 65536. -/
theorem toNat_bmod_eq (w : Word) : (w.toNat : Int).bmod 65536 = w.toInt.bmod 65536 := by
  rw [BitVec.toInt_eq_toNat_bmod, Int.bmod_bmod]

theorem wrapSum_toInt (a b : Nat) : (wrapSum a b).toInt = ((a : Int) + (b : Int)).bmod 65536 := by
  rw [wrapSum, BitVec.toInt_ofNat', Int.natCast_add]

theorem wrapDifference_toInt (a b : Nat) :
    (wrapDifference a b).toInt = ((a : Int) - (b : Int)).bmod 65536 := by
  rw [wrapDifference, BitVec.toInt_ofInt]

/-- Wrapping does not see whether the first operand was read signed or unsigned (R104). -/
theorem bmod_toNat_add (v : Word) (b : Int) :
    ((v.toNat : Int) + b).bmod 65536 = (v.toInt + b).bmod 65536 := by
  rw [← Int.bmod_add_bmod, toNat_bmod_eq, Int.bmod_add_bmod]

theorem bmod_add_toNat (a : Int) (w : Word) :
    (a + (w.toNat : Int)).bmod 65536 = (a + w.toInt).bmod 65536 := by
  rw [Int.add_comm, bmod_toNat_add, Int.add_comm]

theorem bmod_sub_toNat (a : Int) (w : Word) :
    (a - (w.toNat : Int)).bmod 65536 = (a - w.toInt).bmod 65536 := by
  rw [← Int.sub_bmod_bmod, toNat_bmod_eq, Int.sub_bmod_bmod]

theorem bmod_toNat_sub (v : Word) (b : Int) :
    ((v.toNat : Int) - b).bmod 65536 = (v.toInt - b).bmod 65536 := bmod_toNat_add v (-b)

/-- Settles O15: the wrapped result is determined by the operands up to multiples of 65536, which is
all that the signed and the unsigned reading differ by. -/
theorem signedReadingGetsTheSameBits : Obligations.SignedReadingGetsTheSameBits := by
  unfold Obligations.SignedReadingGetsTheSameBits
  refine fun rd rs1 rs2 imm s hrun _ => ⟨?add, ?addi, ?sub, ?subi⟩
  case add =>
    obtain ⟨t, hnext, hreg, -⟩ := exec_next_of_finishWithReg (exec_add rd rs1 rs2 s) hrun
    exact ⟨t, hnext, by rw [hreg, wrapSum_toInt, bmod_toNat_add, bmod_add_toNat]⟩
  case addi =>
    obtain ⟨t, hnext, hreg, -⟩ := exec_next_of_finishWithReg (exec_addi rd rs1 imm s) hrun
    exact ⟨t, hnext, by rw [hreg, wrapSum_toInt, bmod_toNat_add]⟩
  case sub =>
    obtain ⟨t, hnext, hreg, -⟩ := exec_next_of_finishWithReg (exec_sub rd rs1 rs2 s) hrun
    exact ⟨t, hnext, by rw [hreg, wrapDifference_toInt, bmod_toNat_sub, bmod_sub_toNat]⟩
  case subi =>
    obtain ⟨t, hnext, hreg, -⟩ := exec_next_of_finishWithReg (exec_subi rd rs1 imm s) hrun
    exact ⟨t, hnext, by rw [hreg, wrapDifference_toInt, bmod_toNat_sub]⟩

/-! ### `slt` -/

/-- Settles O17: the result is the comparison word of the unsigned operand values. -/
theorem sltWritesUnsignedComparison : Obligations.SltWritesUnsignedComparison := by
  unfold Obligations.SltWritesUnsignedComparison
  constructor
  · exact fun w hop => decode_of_opcode_ne_zero hop (by decide)
  · intro rd rs1 rs2 s hrun
    obtain ⟨t, hnext, hreg, hframe⟩ := exec_next_of_finishWithReg (exec_slt rd rs1 rs2 s) hrun
    exact ⟨t, hnext, by rw [hreg, lessThanWord_toNat], hframe⟩

/-! ### `lw` and `sw` -/

/-- Settles O18: in range, `lw` ends with the word read as its result. -/
theorem lwInRangeLoadsTheWord : Obligations.LwInRangeLoadsTheWord := by
  unfold Obligations.LwInRangeLoadsTheWord
  constructor
  · exact fun w hop => decode_of_opcode_ne_zero hop (by decide)
  · exact fun rd rs1 imm s _ hrun hrange =>
      exec_next_of_finishWithReg (exec_lw_of_le hrange) hrun

/-- Settles O19. -/
theorem lwOutOfRangeTakesLoadFault : Obligations.LwOutOfRangeTakesLoadFault := by
  unfold Obligations.LwOutOfRangeTakesLoadFault
  exact fun rd rs1 imm s _ _ hrange => ⟨_, exec_lw_of_gt hrange, s.raiseFault_tookFault _ _⟩

/-- All that `sw` in range does to a RUNNING state: one memory word holds `x[rd]`, `pc` advances, and
everything else is kept. The canonical form makes the write readable. -/
theorem exec_sw_in_range (rd : RegIndex) {rs1 : RegIndex} {imm : Nat} {s : State}
    (hrun : s.status = .running) (hwf : s.mem.wf) (hrange : s.effectiveAddress rs1 imm ≤ 8191) :
    ∃ t, exec (.sw rd rs1 imm) s = .next t ∧
      t.memRead (s.effectiveAddress rs1 imm) = s.reg rd ∧
      SameMemBut (s.effectiveAddress rs1 imm) s t ∧ SameRegs s t ∧ t.pc = s.pc + 1 ∧
      t.status = .running :=
  ⟨_, exec_sw_of_le hrange, State.memRead_memWrite_same hwf hrange _,
    fun _ ha => State.memRead_memWrite_other s _ ha, fun _ => rfl, rfl, hrun⟩

/-- Settles O20: the effective address is the exact sum, and in range `sw` is one memory write. -/
theorem swInRangeStoresTheWord : Obligations.SwInRangeStoresTheWord := by
  unfold Obligations.SwInRangeStoresTheWord
  constructor
  · exact fun w hop => decode_of_opcode_ne_zero hop (by decide)
  · rintro rd rs1 imm s ea - hrun hwf rfl hrange
    exact ⟨s.effectiveAddress_eq rs1 imm, exec_sw_in_range rd hrun hwf hrange⟩

/-- Settles O21. -/
theorem swOutOfRangeTakesStoreFault : Obligations.SwOutOfRangeTakesStoreFault := by
  unfold Obligations.SwOutOfRangeTakesStoreFault
  exact fun rd rs1 imm s _ _ hrange => ⟨_, exec_sw_of_gt hrange, s.raiseFault_tookFault _ _⟩

/-- Settles O22: `sw` writes no register, so the load forms its address from the same base value, and
reads the word just written there. -/
theorem storeThenLoadReturnsTheValue : Obligations.StoreThenLoadReturnsTheValue := by
  unfold Obligations.StoreThenLoadReturnsTheValue
  intro rd rs1 qd qs imm jmm s _ _ hrun hwf hrange hsame
  obtain ⟨t, hstore, hstored, -, hregs, htpc, htrun⟩ := exec_sw_in_range rd hrun hwf hrange
  have haddress : (t.reg qs).toNat + jmm = s.effectiveAddress rs1 imm := by
    rw [hregs qs, ← hsame, State.effectiveAddress_eq]
  obtain ⟨u, hload, hloaded, -, -, hupc, hurun⟩ :=
    exec_next_of_finishWithReg (exec_lw_of_le (rd := qd) (haddress.trans_le hrange)) htrun
  exact ⟨t, u, hstore, hload, by rw [hloaded, haddress, hstored], hurun, by rw [hupc, htpc]⟩

/-! ### `jeq` -/

/-- Settles O23. -/
theorem jeqOfUnequalRegistersAdvances : Obligations.JeqOfUnequalRegistersAdvances := by
  unfold Obligations.JeqOfUnequalRegistersAdvances
  exact fun rd rs1 rs2 s hrun hne =>
    ⟨_, exec_jeq_of_ne hne, rfl, fun _ => rfl, fun _ => rfl, hrun⟩

/-- Settles O24. -/
theorem jeqOfEqualRegistersJumps : Obligations.JeqOfEqualRegistersJumps := by
  unfold Obligations.JeqOfEqualRegistersJumps
  constructor
  · exact fun w hop => decode_of_opcode_ne_zero hop (by decide)
  · exact fun rd rs1 rs2 s hrun heq hrange =>
      ⟨_, exec_jeq_of_eq_of_le heq hrange, rfl, fun _ => rfl, fun _ => rfl, hrun⟩

/-- Settles O25. -/
theorem jeqTakenOutOfRangeTakesJumpFault : Obligations.JeqTakenOutOfRangeTakesJumpFault := by
  unfold Obligations.JeqTakenOutOfRangeTakesJumpFault
  exact fun rd rs1 rs2 s _ heq hrange =>
    ⟨_, exec_jeq_of_eq_of_gt heq hrange, s.raiseFault_tookFault _ _⟩

/-! ### `halt` -/

theorem State.observedPc_of_halted {s : State} (h : s.status = .halted) (haltSentinel : Int) :
    s.observedPc haltSentinel = haltSentinel := by
  unfold State.observedPc
  rw [h]

/-- Settles O26: `halt` is the zero word alone, and it writes nothing but the status. -/
theorem haltEntersHaltedAndChangesNothingElse :
    Obligations.HaltEntersHaltedAndChangesNothingElse := by
  unfold Obligations.HaltEntersHaltedAndChangesNothingElse
  constructor
  · exact decode_eq_halt_iff
  · intro s _
    obtain ⟨hstatus, hregs, hmem, hpc⟩ := s.enterHalted_spec
    exact ⟨_, exec_halt s, hstatus, hregs, hmem, hpc, State.observedPc_of_halted hstatus⟩

end Sys2Proof.Machine
end

section
/-! Proofs about the step (spec 40_execution_cycle.md, 10_state.md, 60_exceptions.md): everything a step
can do, said once, and what follows of the frames (R85), `pc` (R25), HALTED (R130), the fault causes
(R140) and the invariant. -/

namespace Sys2Proof.Machine

/-! ### Everything an instruction can do -/

/-- What an instruction makes of a state, with the condition it does so under. Only the value that a
register result has is left open. -/
inductive Effect (s : State) : Instr → State → Prop where
  | result {i : Instr} {rd : RegIndex} (hwrites : writtenRegister i = some rd) (v : Word) :
      Effect s i (s.setReg rd v).advancePc
  | stored {rd rs1 : RegIndex} {imm : Nat} (hrange : (s.reg rs1).toNat + imm ≤ 8191) :
      Effect s (.sw rd rs1 imm) (s.memWrite ((s.reg rs1).toNat + imm) (s.reg rd)).advancePc
  | jumped {rd rs1 rs2 : RegIndex} (heq : s.reg rs1 = s.reg rs2)
      (hrange : (s.reg rd).toNat ≤ 8191) :
      Effect s (.jeq rd rs1 rs2) (s.setPc (s.reg rd).toNat)
  | notTaken {rd rs1 rs2 : RegIndex} (hne : s.reg rs1 ≠ s.reg rs2) :
      Effect s (.jeq rd rs1 rs2) s.advancePc
  | halted : Effect s .halt s.enterHalted
  | loadFault {rd rs1 : RegIndex} {imm : Nat} (hrange : 8191 < (s.reg rs1).toNat + imm) :
      Effect s (.lw rd rs1 imm) (s.raiseFault .loadOutOfRange ((s.reg rs1).toNat + imm))
  | storeFault {rd rs1 : RegIndex} {imm : Nat} (hrange : 8191 < (s.reg rs1).toNat + imm) :
      Effect s (.sw rd rs1 imm) (s.raiseFault .storeOutOfRange ((s.reg rs1).toNat + imm))
  | jumpFault {rd rs1 rs2 : RegIndex} (heq : s.reg rs1 = s.reg rs2)
      (hrange : 8191 < (s.reg rd).toNat) :
      Effect s (.jeq rd rs1 rs2) (s.raiseFault .jumpTargetOutOfRange (s.reg rd).toNat)

/-- An answer that is a next state with the effect of the instruction. -/
def HasEffect (i : Instr) (s : State) : Prop := ∃ t, exec i s = .next t ∧ Effect s i t

theorem hasEffect_of_finishWithReg {i : Instr} {rd : RegIndex} {v : Word} {s : State}
    (hwrites : writtenRegister i = some rd) (hexec : exec i s = finishWithReg rd v s) :
    HasEffect i s := ⟨_, hexec, .result hwrites v⟩

/-- Each instruction has one of the effects, by its range check and, for `jeq`, its comparison. -/
theorem exec_hasEffect (i : Instr) (s : State) : HasEffect i s := by
  cases i with
  | halt => exact ⟨_, rfl, .halted⟩
  | add rd rs1 rs2 => exact hasEffect_of_finishWithReg rfl (exec_add rd rs1 rs2 s)
  | addi rd rs1 imm => exact hasEffect_of_finishWithReg rfl (exec_addi rd rs1 imm s)
  | sub rd rs1 rs2 => exact hasEffect_of_finishWithReg rfl (exec_sub rd rs1 rs2 s)
  | subi rd rs1 imm => exact hasEffect_of_finishWithReg rfl (exec_subi rd rs1 imm s)
  | slt rd rs1 rs2 => exact hasEffect_of_finishWithReg rfl (exec_slt rd rs1 rs2 s)
  | lw rd rs1 imm =>
    obtain hrange | hrange := le_or_gt ((s.reg rs1).toNat + imm) 8191
    · exact hasEffect_of_finishWithReg rfl (exec_lw_of_le hrange)
    · exact ⟨_, exec_lw_of_gt hrange, .loadFault hrange⟩
  | sw rd rs1 imm =>
    obtain hrange | hrange := le_or_gt ((s.reg rs1).toNat + imm) 8191
    · exact ⟨_, exec_sw_of_le hrange, .stored hrange⟩
    · exact ⟨_, exec_sw_of_gt hrange, .storeFault hrange⟩
  | jeq rd rs1 rs2 =>
    by_cases heq : s.reg rs1 = s.reg rs2
    · obtain hrange | hrange := le_or_gt (s.reg rd).toNat 8191
      · exact ⟨_, exec_jeq_of_eq_of_le heq hrange, .jumped heq hrange⟩
      · exact ⟨_, exec_jeq_of_eq_of_gt heq hrange, .jumpFault heq hrange⟩
    · exact ⟨_, exec_jeq_of_ne heq, .notTaken heq⟩

theorem effect_of_exec {i : Instr} {s t : State} (h : exec i s = .next t) : Effect s i t := by
  obtain ⟨u, hnext, heffect⟩ := exec_hasEffect i s
  obtain rfl : u = t := by injection hnext.symm.trans h
  exact heffect

/-! ### Everything a step can do -/

theorem step_of_running_of_gt {s : State} (hrun : s.status = .running) (hpc : 8191 < s.pc) :
    step s = .next (s.raiseFault .fetchOutOfRange s.pc) := by
  rw [step_of_running hrun]
  unfold runningStep
  rw [State.fetch_of_gt hpc]

/-- A step is taken from a RUNNING state, and either takes the fetch fault or has the effect of the
instruction at `pc`. -/
theorem step_cases {s t : State} (h : step s = .next t) :
    s.status = .running ∧
      (8191 < s.pc ∧ t = s.raiseFault .fetchOutOfRange s.pc ∨
        s.pc ≤ 8191 ∧ Effect s (decode (s.memRead s.pc)) t) := by
  have hrun := running_of_step_next h
  refine ⟨hrun, ?_⟩
  obtain hpc | hpc := Nat.lt_or_ge 8191 s.pc
  · rw [step_of_running_of_gt hrun hpc] at h
    injection h with h
    exact .inl ⟨hpc, h.symm⟩
  · exact .inr ⟨hpc, effect_of_exec ((step_of_running_of_le hrun hpc).symm.trans h)⟩

/-- Settles O28. -/
theorem fetchOutOfRangeTakesFetchFault : Obligations.FetchOutOfRangeTakesFetchFault := by
  unfold Obligations.FetchOutOfRangeTakesFetchFault
  exact fun s hrun hpc => ⟨_, step_of_running_of_gt hrun hpc, s.raiseFault_tookFault _ _⟩

/-- Settles O29. -/
theorem noStepFromHaltedOrFaulted : Obligations.NoStepFromHaltedOrFaulted := by
  unfold Obligations.NoStepFromHaltedOrFaulted
  exact fun s => ⟨step_of_halted, fun _ => step_of_faulted⟩

/-- Settles O31: out of range the fetch fault is a next state, and in range every instruction answers
one. -/
theorem runningStateAlwaysHasAStep : Obligations.RunningStateAlwaysHasAStep := by
  unfold Obligations.RunningStateAlwaysHasAStep
  intro s hrun
  obtain hpc | hpc := Nat.lt_or_ge 8191 s.pc
  · exact ⟨_, step_of_running_of_gt hrun hpc⟩
  · rw [step_of_running_of_le hrun hpc]
    exact exec_next _ s

/-! ### The outcomes of a step -/

/-- A fault ends FAULTED with registers, memory and `pc` unchanged (decision D6). -/
theorem State.raiseFault_outcome (s : State) (c : FaultCause) (v : Nat) :
    ∃ record, (s.raiseFault c v).status = .faulted record ∧ SameRegs s (s.raiseFault c v) ∧
      SameMem s (s.raiseFault c v) ∧ (s.raiseFault c v).pc = s.pc :=
  ⟨_, s.raiseFault_tookFault c v⟩

/-- The frame of each effect: it stays RUNNING with one register or one stored word changed, or ends
the run with nothing changed. -/
theorem Effect.outcome {s t : State} {i : Instr} (h : Effect s i t) (hrun : s.status = .running) :
    (t.status = .running ∧
      ((SameMem s t ∧ ∀ r, some r ≠ writtenRegister i → t.reg r = s.reg r) ∨
        ∃ rd rs1 imm, i = .sw rd rs1 imm ∧ SameRegs s t ∧
          SameMemBut (s.effectiveAddress rs1 imm) s t)) ∨
    (t.status = .halted ∧ SameRegs s t ∧ SameMem s t) ∨
    (∃ record, t.status = .faulted record ∧ SameRegs s t ∧ SameMem s t ∧ t.pc = s.pc) := by
  cases h with
  | result hwrites v =>
    refine .inl ⟨hrun, .inl ⟨fun _ => rfl, fun r hr => State.reg_setReg_other s v ?_⟩⟩
    rintro rfl
    exact hr hwrites.symm
  | stored hrange =>
    exact .inl ⟨hrun, .inr ⟨_, _, _, rfl, fun _ => rfl,
      fun _ ha => State.memRead_memWrite_other s _ ha⟩⟩
  | jumped | notTaken => exact .inl ⟨hrun, .inl ⟨fun _ => rfl, fun _ _ => rfl⟩⟩
  | halted => exact .inr (.inl ⟨rfl, fun _ => rfl, fun _ => rfl⟩)
  | loadFault | storeFault | jumpFault => exact .inr (.inr (s.raiseFault_outcome _ _))

/-- Settles O32: the fetch fault is of the third kind, and the fetched instruction of any. -/
theorem stepHasOneOfThreeOutcomes : Obligations.StepHasOneOfThreeOutcomes := by
  unfold Obligations.StepHasOneOfThreeOutcomes
  intro s t h
  obtain ⟨hrun, ⟨-, rfl⟩ | ⟨hpc, heffect⟩⟩ := step_cases h
  · exact .inr (.inr (s.raiseFault_outcome _ _))
  · exact (heffect.outcome hrun).imp_left fun ⟨hstatus, hframe⟩ => ⟨hstatus, hpc, hframe⟩

/-! ### `pc` after a step -/

/-- An effect that stays RUNNING redirects `pc` for a taken `jeq` and advances it otherwise. -/
theorem Effect.pc {s t : State} {i : Instr} (h : Effect s i t) (hstatus : t.status = .running) :
    (∃ rd rs1 rs2, i = .jeq rd rs1 rs2 ∧ s.reg rs1 = s.reg rs2 ∧ t.pc = (s.reg rd).toNat) ∨
      ((∀ rd rs1 rs2, i = .jeq rd rs1 rs2 → s.reg rs1 ≠ s.reg rs2) ∧ t.pc = s.pc + 1) := by
  cases h with
  | result hwrites v =>
    refine .inr ⟨?_, rfl⟩
    rintro rd rs1 rs2 rfl
    nomatch hwrites
  | stored hrange => exact .inr ⟨nofun, rfl⟩
  | jumped heq hrange => exact .inl ⟨_, _, _, rfl, heq, rfl⟩
  | notTaken hne =>
    refine .inr ⟨?_, rfl⟩
    rintro rd rs1 rs2 ⟨⟩
    exact hne
  | halted | loadFault | storeFault | jumpFault => nomatch hstatus

/-- Settles O33. -/
theorem stepSetsPcToSuccessorOrJumpTarget : Obligations.StepSetsPcToSuccessorOrJumpTarget := by
  unfold Obligations.StepSetsPcToSuccessorOrJumpTarget
  intro s t h hstatus
  obtain ⟨hrun, ⟨-, rfl⟩ | ⟨hpc, heffect⟩⟩ := step_cases h
  · nomatch hstatus
  · exact heffect.pc hstatus

/-! ### HALTED -/

/-- Of all instructions only `halt` ends HALTED. -/
theorem Effect.halted_iff {s t : State} {i : Instr} (h : Effect s i t)
    (hrun : s.status = .running) : t.status = .halted ↔ i = .halt := by
  have hne : s.status ≠ .halted := by rw [hrun]; exact nofun
  cases h with
  | halted => exact iff_of_true rfl rfl
  | result hwrites v =>
    refine iff_of_false hne ?_
    rintro rfl
    nomatch hwrites
  | stored | jumped | notTaken => exact iff_of_false hne nofun
  | loadFault | storeFault | jumpFault => exact iff_of_false nofun nofun

/-- Settles O34: the fetch fault does not halt, and the only word that decodes to `halt` is zero. -/
theorem onlyTheZeroWordHalts : Obligations.OnlyTheZeroWordHalts := by
  unfold Obligations.OnlyTheZeroWordHalts
  intro s t h
  obtain ⟨hrun, ⟨hpc, rfl⟩ | ⟨hpc, heffect⟩⟩ := step_cases h
  · exact iff_of_false nofun fun hfetched => Nat.not_le.mpr hpc hfetched.1
  · rw [heffect.halted_iff hrun, decode_eq_halt_iff, and_iff_right hpc]

/-! ### The causes of a fault -/

/-- The condition and the value that 60_exceptions.md R140 gives each cause that an instruction has. -/
theorem Effect.fault_cause {s t : State} {i : Instr} {record : FaultRecord} (h : Effect s i t)
    (hrun : s.status = .running) (hstatus : t.status = .faulted record) :
    record.faultPc = s.pc ∧ 8191 < record.faultValue ∧
      ((record.cause = .loadOutOfRange ∧ ∃ rd rs1 imm, i = .lw rd rs1 imm ∧
          record.faultValue = (s.reg rs1).toNat + imm) ∨
        (record.cause = .storeOutOfRange ∧ ∃ rd rs1 imm, i = .sw rd rs1 imm ∧
          record.faultValue = (s.reg rs1).toNat + imm) ∨
        (record.cause = .jumpTargetOutOfRange ∧ ∃ rd rs1 rs2, i = .jeq rd rs1 rs2 ∧
          s.reg rs1 = s.reg rs2 ∧ record.faultValue = (s.reg rd).toNat)) := by
  have hne : s.status ≠ .faulted record := by rw [hrun]; exact nofun
  cases h with
  | result | stored | jumped | notTaken => exact absurd hstatus hne
  | halted => nomatch hstatus
  | loadFault hrange =>
    cases hstatus
    exact ⟨rfl, hrange, .inl ⟨rfl, _, _, _, rfl, rfl⟩⟩
  | storeFault hrange =>
    cases hstatus
    exact ⟨rfl, hrange, .inr (.inl ⟨rfl, _, _, _, rfl, rfl⟩)⟩
  | jumpFault heq hrange =>
    cases hstatus
    exact ⟨rfl, hrange, .inr (.inr ⟨rfl, _, _, _, rfl, heq, rfl⟩)⟩

/-- Settles O35: the fetch fault by its own condition, the other three by the instruction's. -/
theorem stepFaultsOnlyUnderItsCauseCondition :
    Obligations.StepFaultsOnlyUnderItsCauseCondition := by
  unfold Obligations.StepFaultsOnlyUnderItsCauseCondition
  intro s t record h hstatus
  obtain ⟨hrun, ⟨hpc, rfl⟩ | ⟨hpc, heffect⟩⟩ := step_cases h
  · cases hstatus
    exact ⟨rfl, hpc, rfl⟩
  · obtain ⟨hfaultPc, hrange, hcause⟩ := heffect.fault_cause hrun hstatus
    refine ⟨hfaultPc, ?_⟩
    obtain ⟨hload, rd, rs1, imm, hinstr, hvalue⟩ | ⟨hstore, rd, rs1, imm, hinstr, hvalue⟩ |
      ⟨hjump, rd, rs1, rs2, hinstr, heq, hvalue⟩ := hcause
    · rw [hload]; exact ⟨hpc, rd, rs1, imm, hinstr, hvalue, hrange⟩
    · rw [hstore]; exact ⟨hpc, rd, rs1, imm, hinstr, hvalue, hrange⟩
    · rw [hjump]; exact ⟨hpc, rd, rs1, rs2, hinstr, heq, hvalue, hrange⟩

/-! ### The invariant -/

theorem pcAgrees_of_running {s : State} (h : s.status = .running) : PcAgrees s ↔ s.pc ≤ 8192 := by
  unfold PcAgrees
  rw [h]

theorem pcAgrees_of_halted {s : State} (h : s.status = .halted) : PcAgrees s ↔ s.pc ≤ 8191 := by
  unfold PcAgrees
  rw [h]

/-- After a fault `pc` agrees with the record exactly where the record is consistent with the `pc` of
the faulting step. -/
theorem pcAgrees_raiseFault_iff (s : State) (c : FaultCause) (v : Nat) :
    PcAgrees (s.raiseFault c v) ↔ FaultRecord.Consistent ⟨c, s.pc, v⟩ s.pc := Iff.rfl

/-- An effective address is at most 65535 + 15 (42_memory_access.md R110). -/
theorem effectiveAddress_le (s : State) (rs1 : RegIndex) {imm : Nat}
    (h : immediateInRange imm = true) : (s.reg rs1).toNat + imm ≤ 65550 := by
  have himm := (immediateInRange_iff imm).mp h
  have hbase := (s.reg rs1).isLt
  omega

/-- From a fetched address, each effect of a well-formed instruction leaves `pc` in agreement with the
status. -/
theorem Effect.pcAgrees {s t : State} {i : Instr} (h : Effect s i t) (hi : i.WellFormed)
    (hrun : s.status = .running) (hpc : s.pc ≤ 8191) : PcAgrees t := by
  cases h with
  | result | stored | notTaken =>
    exact (pcAgrees_of_running (by exact hrun)).mpr (Nat.succ_le_succ hpc)
  | jumped heq hrange =>
    exact (pcAgrees_of_running (by exact hrun)).mpr (Nat.le_succ_of_le hrange)
  | halted => exact (pcAgrees_of_halted rfl).mpr hpc
  | loadFault hrange | storeFault hrange =>
    exact (pcAgrees_raiseFault_iff s _ _).mpr ⟨rfl, hpc, hrange, effectiveAddress_le s _ hi⟩
  | jumpFault heq hrange =>
    exact (pcAgrees_raiseFault_iff s _ _).mpr
      ⟨rfl, hpc, hrange, Nat.le_of_lt_succ (s.reg _).isLt⟩

/-- No effect touches memory but a store, which is a canonical write. -/
theorem Effect.mem_wf {s t : State} {i : Instr} (h : Effect s i t) (hwf : s.mem.wf) :
    t.mem.wf := by
  cases h with
  | stored => exact Memory.write_wf hwf _ _
  | result | jumped | notTaken | halted | loadFault | storeFault | jumpFault => exact hwf

theorem step_keeps_inv {s t : State} (hinv : Inv s) (h : step s = .next t) : Inv t := by
  obtain ⟨hwf, hagrees⟩ := hinv
  obtain ⟨hrun, ⟨hpc, rfl⟩ | ⟨hpc, heffect⟩⟩ := step_cases h
  · have hlast : s.pc = 8192 := Nat.le_antisymm ((pcAgrees_of_running hrun).mp hagrees) hpc
    exact ⟨hwf, (pcAgrees_raiseFault_iff s _ _).mpr ⟨rfl, hlast, hlast⟩⟩
  · exact ⟨heffect.mem_wf hwf, heffect.pcAgrees (decode_wellFormed _) hrun hpc⟩

/-- Settles O42: a step from a fetched address has one of the effects of a well-formed instruction, and
the fetch fault can only be at 8192. -/
theorem stepKeepsTheInvariant : Obligations.StepKeepsTheInvariant := by
  unfold Obligations.StepKeepsTheInvariant
  exact fun _ _ => step_keeps_inv

end Sys2Proof.Machine
end

section
/-! Proofs about what an instruction reads (spec 10_state.md R23, R31): the registers of the table, and
never the status. -/

namespace Sys2Proof.Machine

/-! ### Registers read and written -/

/-- The two states are not told apart by the instruction: they go to states that agree in `pc`, status,
memory and, unless the step faulted, the written register, and each keeps its other registers. -/
def NotToldApart (i : Instr) (s u : State) : Prop :=
  ∃ t v, exec i s = .next t ∧ exec i u = .next v ∧
    v.pc = t.pc ∧ v.status = t.status ∧ v.mem = t.mem ∧
    (∀ r, writtenRegister i = some r → t.status = .running → v.reg r = t.reg r) ∧
    ∀ r, writtenRegister i ≠ some r → t.reg r = s.reg r ∧ v.reg r = u.reg r

/-- The two states agree in all but the registers. -/
structure AgreeOutsideRegs (s u : State) : Prop where
  pc : u.pc = s.pc
  status : u.status = s.status
  mem : u.mem = s.mem

section
variable {i : Instr} {rd rs1 rs2 : RegIndex} {imm : Nat} {s u : State}

/-- An instruction that ends with a register result does not tell the states apart where the result is
the same in both. -/
theorem notToldApart_of_finishWithReg {x y : Word} (hs : exec i s = finishWithReg rd x s)
    (hu : exec i u = finishWithReg rd y u) (hwrites : writtenRegister i = some rd)
    (hagree : AgreeOutsideRegs s u) (hresult : y = x) : NotToldApart i s u := by
  refine ⟨_, _, hs, hu, congrArg (· + 1) hagree.pc, hagree.status, hagree.mem,
    fun r hr _ => ?written, fun r hr => ?others⟩
  case written =>
    obtain rfl : rd = r := Option.some.inj (hwrites.symm.trans hr)
    calc (u.setReg rd y).reg rd
        _ = y := u.reg_setReg_same rd y
        _ = x := hresult
        _ = (s.setReg rd x).reg rd := (s.reg_setReg_same rd x).symm
  case others =>
    have hne : r ≠ rd := by
      rintro rfl
      exact hr hwrites
    exact ⟨s.reg_setReg_other _ hne, u.reg_setReg_other _ hne⟩

/-- Taking the same fault does not tell the states apart. -/
theorem notToldApart_of_raiseFault {c : FaultCause} {x y : Nat}
    (hs : exec i s = .next (s.raiseFault c x)) (hu : exec i u = .next (u.raiseFault c y))
    (hagree : AgreeOutsideRegs s u) (hvalue : y = x) : NotToldApart i s u := by
  refine ⟨_, _, hs, hu, hagree.pc, ?_, hagree.mem, nofun, fun _ _ => ⟨rfl, rfl⟩⟩
  rw [State.raiseFault_status, State.raiseFault_status, hagree.pc, hvalue]

/-- Nor does ending without a register written, in the same `pc`, status and memory. -/
theorem notToldApart_of_sameRegs {t v : State} (hs : exec i s = .next t) (hu : exec i u = .next v)
    (hwrites : writtenRegister i = none) (hst : SameRegs s t) (huv : SameRegs u v)
    (hagree : AgreeOutsideRegs t v) : NotToldApart i s u := by
  refine ⟨t, v, hs, hu, hagree.pc, hagree.status, hagree.mem, fun r hr => ?_,
    fun r _ => ⟨hst r, huv r⟩⟩
  nomatch hwrites.symm.trans hr

/-- `lw` depends on its base register only: the range check and the address come from it. -/
theorem notToldApart_lw (hagree : AgreeOutsideRegs s u) (hbase : u.reg rs1 = s.reg rs1) :
    NotToldApart (.lw rd rs1 imm) s u := by
  obtain hrange | hrange := le_or_gt ((s.reg rs1).toNat + imm) 8191
  · refine notToldApart_of_finishWithReg (exec_lw_of_le hrange) (exec_lw_of_le (by rwa [hbase]))
      rfl hagree ?_
    simp only [State.memRead, hbase, hagree.mem]
  · exact notToldApart_of_raiseFault (exec_lw_of_gt hrange) (exec_lw_of_gt (by rwa [hbase])) hagree
      (by rw [hbase])

/-- `sw` depends on its base register and the register stored. -/
theorem notToldApart_sw (hagree : AgreeOutsideRegs s u) (hbase : u.reg rs1 = s.reg rs1)
    (hvalue : u.reg rd = s.reg rd) : NotToldApart (.sw rd rs1 imm) s u := by
  obtain hrange | hrange := le_or_gt ((s.reg rs1).toNat + imm) 8191
  · refine notToldApart_of_sameRegs (exec_sw_of_le hrange) (exec_sw_of_le (by rwa [hbase])) rfl
      (fun _ => rfl) (fun _ => rfl) ⟨congrArg (· + 1) hagree.pc, hagree.status, ?_⟩
    simp only [State.advancePc_mem, State.memWrite_mem, hbase, hvalue, hagree.mem]
  · exact notToldApart_of_raiseFault (exec_sw_of_gt hrange) (exec_sw_of_gt (by rwa [hbase])) hagree
      (by rw [hbase])

/-- `jeq` depends on the compared registers, and on its target only where it is taken. -/
theorem notToldApart_jeq (hagree : AgreeOutsideRegs s u) (h1 : u.reg rs1 = s.reg rs1)
    (h2 : u.reg rs2 = s.reg rs2) (htarget : s.reg rs1 = s.reg rs2 → u.reg rd = s.reg rd) :
    NotToldApart (.jeq rd rs1 rs2) s u := by
  by_cases heq : s.reg rs1 = s.reg rs2
  · have heq' : u.reg rs1 = u.reg rs2 := by rw [h1, h2, heq]
    have hsame : u.reg rd = s.reg rd := htarget heq
    obtain hrange | hrange := le_or_gt (s.reg rd).toNat 8191
    · exact notToldApart_of_sameRegs (exec_jeq_of_eq_of_le heq hrange)
        (exec_jeq_of_eq_of_le heq' (by rwa [hsame])) rfl (fun _ => rfl) (fun _ => rfl)
        ⟨congrArg BitVec.toNat hsame, hagree.status, hagree.mem⟩
    · exact notToldApart_of_raiseFault (exec_jeq_of_eq_of_gt heq hrange)
        (exec_jeq_of_eq_of_gt heq' (by rwa [hsame])) hagree (by rw [hsame])
  · exact notToldApart_of_sameRegs (exec_jeq_of_ne heq) (exec_jeq_of_ne (by rwa [h1, h2])) rfl
      (fun _ => rfl) (fun _ => rfl) ⟨congrArg (· + 1) hagree.pc, hagree.status, hagree.mem⟩

end

/-- The registers of the table are all that an instruction depends on, besides `pc` and memory. -/
theorem notToldApart_of_agree {i : Instr} {s u : State} (hagree : AgreeOutsideRegs s u)
    (hread : ∀ r ∈ readRegisters s i, u.reg r = s.reg r) : NotToldApart i s u := by
  cases i with
  | halt =>
    exact notToldApart_of_sameRegs rfl rfl rfl (fun _ => rfl) (fun _ => rfl)
      ⟨hagree.pc, rfl, hagree.mem⟩
  | add rd rs1 rs2 | sub rd rs1 rs2 | slt rd rs1 rs2 =>
    simp only [readRegisters, List.forall_mem_cons] at hread
    obtain ⟨h1, h2, -⟩ := hread
    exact notToldApart_of_finishWithReg rfl rfl rfl hagree (by simp only [State.regValue, h1, h2])
  | addi rd rs1 imm | subi rd rs1 imm =>
    simp only [readRegisters, List.forall_mem_cons] at hread
    obtain ⟨h1, -⟩ := hread
    exact notToldApart_of_finishWithReg rfl rfl rfl hagree (by simp only [State.regValue, h1])
  | lw rd rs1 imm => exact notToldApart_lw hagree (hread rs1 (by simp [readRegisters]))
  | sw rd rs1 imm =>
    simp only [readRegisters, List.forall_mem_cons] at hread
    obtain ⟨hbase, hvalue, -⟩ := hread
    exact notToldApart_sw hagree hbase hvalue
  | jeq rd rs1 rs2 =>
    simp only [readRegisters] at hread
    refine notToldApart_jeq hagree (hread rs1 ?_) (hread rs2 ?_) fun heq => hread rd ?_
    · split <;> simp
    · split <;> simp
    · simp [heq]

/-- Settles O36. -/
theorem instructionsReadAndWriteTheRegistersOfTheTable :
    Obligations.InstructionsReadAndWriteTheRegistersOfTheTable := by
  unfold Obligations.InstructionsReadAndWriteTheRegistersOfTheTable
  exact fun i s u hs hu hpc hmem hread => notToldApart_of_agree ⟨hpc, hu.trans hs.symm, hmem⟩ hread

/-! ### The status is not read -/

/-- Settles O37: operands, range checks and comparison are the same under every status. -/
theorem instructionsDoNotReadTheStatus : Obligations.InstructionsDoNotReadTheStatus := by
  unfold Obligations.InstructionsDoNotReadTheStatus
  intro i s status
  cases i with
  | halt | add | addi | sub | subi | slt => exact ⟨_, _, rfl, rfl, rfl, rfl, rfl⟩
  | lw rd rs1 imm =>
    obtain hrange | hrange := le_or_gt ((s.reg rs1).toNat + imm) 8191
    · exact ⟨_, _, exec_lw_of_le hrange, exec_lw_of_le hrange, rfl, rfl, rfl⟩
    · exact ⟨_, _, exec_lw_of_gt hrange, exec_lw_of_gt hrange, rfl, rfl, rfl⟩
  | sw rd rs1 imm =>
    obtain hrange | hrange := le_or_gt ((s.reg rs1).toNat + imm) 8191
    · exact ⟨_, _, exec_sw_of_le hrange, exec_sw_of_le hrange, rfl, rfl, rfl⟩
    · exact ⟨_, _, exec_sw_of_gt hrange, exec_sw_of_gt hrange, rfl, rfl, rfl⟩
  | jeq rd rs1 rs2 =>
    by_cases heq : s.reg rs1 = s.reg rs2
    · obtain hrange | hrange := le_or_gt (s.reg rd).toNat 8191
      · exact ⟨_, _, exec_jeq_of_eq_of_le heq hrange, exec_jeq_of_eq_of_le heq hrange, rfl, rfl,
          rfl⟩
      · exact ⟨_, _, exec_jeq_of_eq_of_gt heq hrange, exec_jeq_of_eq_of_gt heq hrange, rfl, rfl,
          rfl⟩
    · exact ⟨_, _, exec_jeq_of_ne heq, exec_jeq_of_ne heq, rfl, rfl, rfl⟩

end Sys2Proof.Machine
end

section
/-! Proofs about memory (spec 20_memory.md): the canonical list is determined by its reads, a read returns
the most recent write, and the next fetch is a read (section 7). -/

namespace Sys2Proof.Machine

/-! ### What a canonical memory lists -/

theorem Memory.read_cons_same (a : Nat) (v : Word) (rest : Memory) :
    Memory.read ((a, v) :: rest) a = v := if_pos rfl

theorem Memory.read_cons_other {a b : Nat} (v : Word) (rest : Memory) (h : b ≠ a) :
    Memory.read ((a, v) :: rest) b = Memory.read rest b := if_neg h.symm

/-- A cell of a list with rising addresses is the one that a read of its address finds. -/
theorem Memory.read_of_mem {m : Memory} (hm : m.Pairwise (fun c d => c.1 < d.1)) {a : Nat}
    {v : Word} (h : (a, v) ∈ m) : Memory.read m a = v := by
  induction m with
  | nil => nomatch h
  | cons c rest ih =>
    obtain ⟨hfirst, hrest⟩ := List.pairwise_cons.mp hm
    obtain rfl | htail := List.mem_cons.mp h
    · exact Memory.read_cons_same a v rest
    · have hne : a ≠ c.1 := (Nat.ne_of_lt (hfirst _ htail)).symm
      exact (Memory.read_cons_other c.2 rest hne).trans (ih hrest htail)

/-- What reads differently from an unlisted address is listed. -/
theorem Memory.mem_of_read {m : Memory} {a : Nat} {v : Word} (hv : v ≠ Config.unlistedWord)
    (h : Memory.read m a = v) : (a, v) ∈ m := by
  induction m with
  | nil => exact absurd h.symm hv
  | cons c rest ih =>
    obtain ⟨b, w⟩ := c
    by_cases hab : a = b
    · subst hab
      rw [Memory.read_cons_same] at h
      rw [h]
      exact List.mem_cons_self
    · rw [Memory.read_cons_other w rest hab] at h
      exact List.mem_cons_of_mem _ (ih h)

/-- A canonical memory lists a cell exactly where the address is in range and reads as the cell's word,
which is not the word of an unlisted address. -/
theorem Memory.mem_iff_read {m : Memory} (hm : m.wf) (a : Nat) (v : Word) :
    (a, v) ∈ m ↔ a ≤ 8191 ∧ v ≠ Config.unlistedWord ∧ Memory.read m a = v := by
  obtain ⟨hrising, hcells⟩ := hm
  constructor
  · intro h
    obtain ⟨hrange, hword⟩ := hcells _ h
    exact ⟨hrange, hword, Memory.read_of_mem hrising h⟩
  · rintro ⟨-, hword, hread⟩
    exact Memory.mem_of_read hword hread

/-- Two lists with rising addresses and the same cells are the same list. -/
theorem Memory.eq_of_mem_iff {m n : Memory} (hm : m.Pairwise (fun c d => c.1 < d.1))
    (hn : n.Pairwise (fun c d => c.1 < d.1)) (h : ∀ c, c ∈ m ↔ c ∈ n) : m = n := by
  have hirrefl : Std.Irrefl fun c d : Cell => c.1 < d.1 := ⟨fun c => Nat.lt_irrefl c.1⟩
  have hantisymm : Std.Antisymm fun c d : Cell => c.1 < d.1 :=
    ⟨fun _ _ hcd hdc => absurd hdc (Nat.lt_asymm hcd)⟩
  exact hm.eq_of_mem_iff hn h

/-- Settles O41: equal reads mean equal cells, and the order of the cells is fixed. -/
theorem canonicalMemoriesWithEqualReadsAreEqual :
    Obligations.CanonicalMemoriesWithEqualReadsAreEqual := by
  unfold Obligations.CanonicalMemoriesWithEqualReadsAreEqual
  intro m n hm hn hread
  refine Memory.eq_of_mem_iff hm.1 hn.1 fun ⟨a, v⟩ => ?_
  rw [Memory.mem_iff_read hm, Memory.mem_iff_read hn]
  exact and_congr_right fun ha => by rw [hread a ha]

/-! ### A sequence of writes -/

theorem State.foldl_memWrite_wf (writes : List (Nat × Word)) {s : State} (hs : s.mem.wf) :
    (writes.foldl (fun t c => t.memWrite c.1 c.2) s).mem.wf := by
  induction writes generalizing s with
  | nil => exact hs
  | cons c rest ih => exact ih (Memory.write_wf hs c.1 c.2)

/-- Settles O40, by induction from the last write back: either it is to the address read, or the earlier
ones decide. -/
theorem readReturnsTheMostRecentWrite : Obligations.ReadReturnsTheMostRecentWrite := by
  unfold Obligations.ReadReturnsTheMostRecentWrite
  intro writes s a hs hrange
  induction writes using List.reverseRecOn with
  | nil => rfl
  | append_singleton earlier last ih =>
    rw [List.foldl_append, List.reverse_append]
    have hwf := State.foldl_memWrite_wf earlier hs
    by_cases hlast : last.1 = a
    · subst hlast
      have hinRange : last.1 ≤ 8191 := hrange last (by simp)
      rw [List.reverse_singleton, List.singleton_append, List.find?_cons_of_pos (by simp)]
      exact State.memRead_memWrite_same hwf hinRange last.2
    · rw [List.reverse_singleton, List.singleton_append,
        List.find?_cons_of_neg (by simpa using hlast),
        ← ih fun c hc => hrange c (List.mem_append_left _ hc)]
      exact State.memRead_memWrite_other _ last.2 (Ne.symm hlast)

/-! ### The next fetch -/

/-- Settles O38: the stored word stands at the `pc` of the next step, which fetches it. -/
theorem storeToNextAddressIsFetchedNext : Obligations.StoreToNextAddressIsFetchedNext := by
  unfold Obligations.StoreToNextAddressIsFetchedNext
  intro s rd rs1 imm hrun hwf hnext hdecode haddress
  obtain ⟨t, hexec, hstored, -, -, hpc, htrun⟩ :=
    exec_sw_in_range rd hrun hwf (haddress.trans_le hnext)
  refine ⟨t, ?step, hpc, ?fetched⟩
  case step => rw [step_of_running_of_le hrun (Nat.le_of_succ_le hnext), hdecode, hexec]
  case fetched =>
    rw [step_of_running_of_le htrun (hpc.trans_le hnext), hpc, ← haddress, hstored]

/-- The host's 16 bits are the word placed. -/
theorem State.withFetchWord_sixteen (s : State) (w : Nat) :
    s.withFetchWord 16 w = s.placeFetchWord (BitVec.ofNat 16 w) := by
  have hword : BitVec.ofNat 16 (w % 2 ^ 16) = BitVec.ofNat 16 w :=
    BitVec.eq_of_toNat_eq (by simp only [BitVec.toNat_ofNat, Nat.mod_mod])
  rw [State.withFetchWord, hword]

/-- In a canonical memory the word placed is the one that stands at `pc`. -/
theorem State.memRead_placeFetchWord {s : State} (hwf : s.mem.wf) (hpc : s.pc ≤ 8191) (w : Word) :
    (s.placeFetchWord w).memRead s.pc = w := State.memRead_memWrite_same hwf hpc w

/-- Settles O39: placing is one memory write at `pc`. -/
theorem placedFetchWordIsRunByTheNextStep : Obligations.PlacedFetchWordIsRunByTheNextStep := by
  unfold Obligations.PlacedFetchWordIsRunByTheNextStep
  intro s w hrun hwf hpc _
  rw [State.withFetchWord_sixteen]
  refine ⟨?step, fun _ => rfl, fun a ha => State.memRead_memWrite_other s _ ha, rfl, hrun⟩
  case step =>
    rw [step_of_running_of_le (by exact hrun) (by exact hpc), State.placeFetchWord_pc,
      State.memRead_placeFetchWord hwf hpc]

end Sys2Proof.Machine
end

section
/-! Proofs about the start and the end of a run (spec 70_reset_and_hazards.md, 40_execution_cycle.md
section 2): which images start one, what every state of it keeps, and where it ends. -/

namespace Sys2Proof.Machine

/-! ### The start -/

/-- An image that does not fit the memory starts no run (70_reset_and_hazards.md R166). -/
theorem Loader.start_of_gt {image : List Word} (h : 8192 < image.length) :
    Loader.start image = none := if_neg (Nat.not_le.mpr h)

theorem Loader.start_eq_none_iff (image : List Word) :
    Loader.start image = none ↔ 8192 < image.length := by
  constructor
  · intro hnone
    by_contra hfit
    nomatch (Loader.start_of_le (Nat.not_lt.mp hfit)).symm.trans hnone
  · exact Loader.start_of_gt

/-- A run that starts, starts in the start state of its image. -/
theorem Loader.eq_startState_of_start {image : List Word} {s : State}
    (h : Loader.start image = some s) : s = Loader.startState image := by
  have hfit : image.length ≤ 8192 := by
    by_contra hlong
    nomatch (Loader.start_of_gt (Nat.not_le.mp hlong)).symm.trans h
  rw [Loader.start_of_le hfit] at h
  exact (Option.some.inj h).symm

/-- The first fetch of the reset state reads a word that nothing has written, which is `halt`. -/
theorem step_reset : step State.reset = .next State.reset.enterHalted :=
  step_of_running_of_le (s := State.reset) rfl (Nat.zero_le _)

/-- Settles O47. -/
theorem resetStateIsTheEmptyImageStart : Obligations.ResetStateIsTheEmptyImageStart := by
  unfold Obligations.ResetStateIsTheEmptyImageStart
  exact ⟨Loader.start_of_le (Nat.zero_le _), ⟨_, step_reset, rfl⟩, fun _ => Loader.start_of_gt⟩

/-! ### The image lines -/

/-- Lines that are accepted end within the memory, so the image they give fits it. -/
theorem Loader.length_le_of_checkLines_loaded {n : Nat} (hn : n ≤ 8192)
    {lines : List (Option ImageLine)} {image : List Word}
    (h : checkLines n lines = .loaded image) : n + image.length ≤ 8192 := by
  induction lines generalizing n image with
  | nil =>
    cases h
    exact hn
  | cons line rest ih =>
    cases line with
    | none => nomatch h
    | some line =>
      obtain ⟨-, hroom, tail, htail, rfl⟩ := (Loader.checkLines_cons_loaded_iff ..).mp h
      have hfit := ih hroom htail
      rw [List.length_cons]
      omega

theorem Loader.length_le_of_load {imageLineFilter : String → Bool} {lines : List String}
    {image : List Word} (h : load imageLineFilter lines = .loaded image) : image.length ≤ 8192 := by
  have hfit := Loader.length_le_of_checkLines_loaded (Nat.zero_le 8192) h
  rwa [Nat.zero_add] at hfit

theorem Loader.boot_of_loaded {imageLineFilter : String → Bool} {lines : List String}
    {image : List Word} (h : load imageLineFilter lines = .loaded image) :
    boot imageLineFilter lines = some (startState image) := by
  unfold boot
  rw [h]
  exact Loader.start_of_le (Loader.length_le_of_load h)

theorem Loader.boot_of_failed {imageLineFilter : String → Bool} {lines : List String}
    {error : LoadError} (h : load imageLineFilter lines = .failed error) :
    boot imageLineFilter lines = none := by
  unfold boot
  rw [h]

/-- Settles O49: a loaded image always fits the memory, so the capacity check of the start never fails
after loading. -/
theorem loadErrorStartsNoRun : Obligations.LoadErrorStartsNoRun := by
  unfold Obligations.LoadErrorStartsNoRun
  intro imageLineFilter lines
  cases hload : Loader.load imageLineFilter lines with
  | loaded image =>
    rw [Loader.boot_of_loaded hload]
    exact iff_of_false nofun nofun
  | failed error =>
    rw [Loader.boot_of_failed hload]
    exact iff_of_true ⟨error, rfl⟩ rfl

/-! ### The image literal -/

/-- The character of one bit in an image literal (70_reset_and_hazards.md R163). -/
def bitChar (b : Bool) : Char := if b then '1' else '0'

/-- Reading a bit's character shifts the value read so far and adds the bit. -/
theorem Loader.binary_bitChar (k n : Nat) (b : Bool) (text : List Char) :
    binary (k + 1) n (bitChar b :: text) = binary k (2 * n + b.toNat) text := by
  cases b <;> rfl

/-- Reading the characters of the low `m` bits, the highest first, appends those bits to the value read
so far. -/
theorem Loader.binary_bits (w : Word) (m n : Nat) (text : List Char) :
    binary m n ((List.range m).map (fun k => bitChar (w.getLsbD (m - 1 - k))) ++ text) =
      some (n * 2 ^ m + w.toNat % 2 ^ m, text) := by
  induction m generalizing n with
  | zero => simp [binary, Nat.mod_one]
  | succ m ih =>
    have hrest : ((List.range m).map Nat.succ).map
          (fun k => bitChar (w.getLsbD (m + 1 - 1 - k))) =
        (List.range m).map (fun k => bitChar (w.getLsbD (m - 1 - k))) := by
      rw [List.map_map]
      refine List.map_congr_left fun k _ => ?_
      have hindex : m + 1 - 1 - (k + 1) = m - 1 - k := by omega
      exact congrArg (fun j => bitChar (w.getLsbD j)) hindex
    have hvalue : (2 * n + (w.getLsbD m).toNat) * 2 ^ m + w.toNat % 2 ^ m =
        n * 2 ^ (m + 1) + w.toNat % 2 ^ (m + 1) := by
      rw [Nat.mod_pow_succ, ← BitVec.testBit_toNat, Nat.toNat_testBit]
      ring
    rw [List.range_succ_eq_map, List.map_cons, hrest, List.cons_append, Loader.binary_bitChar, ih,
      Nat.sub_zero, Nat.add_sub_cancel, hvalue]

/-- Settles O50: all 16 bits, read from nothing. -/
theorem imageLiteralIsReadMostSignificantBitFirst :
    Obligations.ImageLiteralIsReadMostSignificantBitFirst := by
  unfold Obligations.ImageLiteralIsReadMostSignificantBitFirst
  intro w text
  have hread := Loader.binary_bits w 16 0 text
  rwa [Nat.zero_mul, Nat.zero_add, Nat.mod_eq_of_lt w.isLt] at hread

/-! ### The invariant along a run -/

/-- The start state of any image has a canonical memory, and its `pc` is 0. -/
theorem Loader.startState_inv (image : List Word) : Inv (Loader.startState image) :=
  ⟨Loader.storeFrom_wf image 0 State.reset_mem_wf,
    (pcAgrees_of_running (s := Loader.startState image) rfl).mpr (Nat.zero_le _)⟩

/-- Settles O43: the reset state is the start state of the empty image. -/
theorem resetMeetsTheInvariant : Obligations.ResetMeetsTheInvariant := by
  unfold Obligations.ResetMeetsTheInvariant
  exact Loader.startState_inv []

/-- The invariant holds along every run. -/
theorem Reaches.keeps_inv {s t : State} (h : Reaches s t) (hs : Inv s) : Inv t := by
  induction h with
  | refl => exact hs
  | tail _ hstep ih => exact step_keeps_inv ih hstep

/-- Settles O44. -/
theorem everyRunFromAnImageKeepsTheInvariant :
    Obligations.EveryRunFromAnImageKeepsTheInvariant := by
  unfold Obligations.EveryRunFromAnImageKeepsTheInvariant
  intro image s t hstart hreaches
  obtain rfl := Loader.eq_startState_of_start hstart
  exact hreaches.keeps_inv (Loader.startState_inv image)

/-! ### The end of a run -/

/-- A run may also be extended at its start. -/
theorem Reaches.head {s t u : State} (hstep : step s = .next t) (h : Reaches t u) :
    Reaches s u := by
  induction h with
  | refl => exact .tail (.refl s) hstep
  | tail _ hlast ih => exact .tail ih hlast

theorem runToEnd_of_ended {s : State} (h : s.status ≠ .running) (fuel : Nat) :
    runToEnd fuel s = some s := by
  cases fuel with
  | zero => exact if_neg h
  | succ fuel => exact if_neg h

theorem runToEnd_zero_of_running {s : State} (h : s.status = .running) : runToEnd 0 s = none :=
  if_pos h

theorem runToEnd_succ_of_step {s t : State} (h : step s = .next t) (fuel : Nat) :
    runToEnd (fuel + 1) s = runToEnd fuel t := by
  rw [runToEnd, if_pos (running_of_step_next h), h]

/-- An answer of `runToEnd` is an ended state that steps reach, and more fuel does not change it. -/
theorem runToEnd_sound {fuel : Nat} (more : Nat) {s t : State} (h : runToEnd fuel s = some t) :
    t.status ≠ .running ∧ Reaches s t ∧ runToEnd (fuel + more) s = some t := by
  induction fuel generalizing s with
  | zero =>
    have hended : s.status ≠ .running := fun hrun =>
      nomatch (runToEnd_zero_of_running hrun).symm.trans h
    obtain rfl : s = t := Option.some.inj ((runToEnd_of_ended hended 0).symm.trans h)
    exact ⟨hended, .refl s, runToEnd_of_ended hended _⟩
  | succ fuel ih =>
    by_cases hrun : s.status = .running
    · obtain ⟨u, hstep⟩ := runningStateAlwaysHasAStep s hrun
      rw [runToEnd_succ_of_step hstep] at h
      obtain ⟨hended, hreaches, hmore⟩ := ih h
      refine ⟨hended, hreaches.head hstep, ?_⟩
      rw [Nat.add_right_comm, runToEnd_succ_of_step hstep, hmore]
    · obtain rfl : s = t := Option.some.inj ((runToEnd_of_ended hrun _).symm.trans h)
      exact ⟨hrun, .refl s, runToEnd_of_ended hrun _⟩

/-- What `runToEnd` answers from a state that a run reaches, it answers from the run's start, with the
fuel of the steps between. -/
theorem Reaches.runToEnd_eq {s t u : State} (h : Reaches s t) {fuel : Nat}
    (hend : runToEnd fuel t = some u) : ∃ fuel, runToEnd fuel s = some u := by
  induction h generalizing fuel with
  | refl => exact ⟨fuel, hend⟩
  | tail _ hstep ih => exact ih ((runToEnd_succ_of_step hstep fuel).trans hend)

/-- Settles O45. -/
theorem endOfRunIsReachedAndStable : Obligations.EndOfRunIsReachedAndStable := by
  unfold Obligations.EndOfRunIsReachedAndStable
  constructor
  · exact fun fuel more s t h => runToEnd_sound more h
  · exact fun s t hreaches hended => hreaches.runToEnd_eq (runToEnd_of_ended hended 0)

end Sys2Proof.Machine
end

section
/-! Proofs about the observation (spec 10_state.md R32, R37): the sentinel is observed in HALTED alone,
and nothing of the state is hidden. -/

namespace Sys2Proof.Machine

theorem State.observedPc_of_not_halted {s : State} (h : s.status ≠ .halted) (haltSentinel : Int) :
    s.observedPc haltSentinel = s.pc := by
  unfold State.observedPc
  cases hstatus : s.status with
  | running => rfl
  | faulted record => rfl
  | halted => exact absurd hstatus h

/-- Every cause is of a step at 8192 or below. -/
theorem FaultRecord.Consistent.pc_le {record : FaultRecord} {pc : Nat}
    (h : record.Consistent pc) : pc ≤ 8192 := by
  obtain ⟨cause, faultPc, faultValue⟩ := record
  obtain ⟨-, hcause⟩ := h
  cases cause with
  | fetchOutOfRange =>
    obtain ⟨hpc, -⟩ := hcause
    exact Nat.le_of_eq hpc
  | loadOutOfRange | storeOutOfRange | jumpTargetOutOfRange =>
    obtain ⟨hpc, -, -⟩ := hcause
    exact Nat.le_succ_of_le hpc

/-- Under every status `pc` is at most 8192. -/
theorem PcAgrees.pc_le {s : State} (h : PcAgrees s) : s.pc ≤ 8192 := by
  unfold PcAgrees at h
  cases hstatus : s.status with
  | running => rwa [hstatus] at h
  | halted =>
    rw [hstatus] at h
    exact Nat.le_succ_of_le h
  | faulted record =>
    rw [hstatus] at h
    exact h.pc_le

/-- Settles O51: an out-of-band marker is no number from 0 to 8192. -/
theorem observedPcIsTheSentinelExactlyWhenHalted :
    Obligations.ObservedPcIsTheSentinelExactlyWhenHalted := by
  unfold Obligations.ObservedPcIsTheSentinelExactlyWhenHalted
  rintro haltSentinel s hband ⟨-, hagrees⟩
  by_cases hhalted : s.status = .halted
  · exact iff_of_true (State.observedPc_of_halted hhalted haltSentinel) hhalted
  · refine iff_of_false ?_ hhalted
    have hpc := hagrees.pc_le
    rw [State.observedPc_of_not_halted hhalted]
    unfold Config.OutOfBand at hband
    omega

/-- The status code and the fault record make up the status. -/
theorem Status.eq_of_code_of_faultRecord {a b : Status} (hcode : a.code = b.code)
    (hrecord : a.faultRecord = b.faultRecord) : a = b := by
  match a, b with
  | .running, .running => rfl
  | .halted, .halted => rfl
  | .faulted _, .faulted _ => exact congrArg Status.faulted (Option.some.inj hrecord)

/-- Settles O52. -/
theorem observationShowsTheWholeState : Obligations.ObservationShowsTheWholeState := by
  unfold Obligations.ObservationShowsTheWholeState
  intro s t h
  obtain ⟨hcode, hpc, hregs, hmem, hrecord⟩ := Observation.mk.inj h
  have hstatus := Status.eq_of_code_of_faultRecord hcode hrecord
  refine ⟨hregs, hmem, hstatus, fun hs => ?_⟩
  have ht : t.status ≠ .halted := hstatus ▸ hs
  rw [State.observedPc_of_not_halted hs, State.observedPc_of_not_halted ht] at hpc
  exact Int.ofNat.inj hpc

end Sys2Proof.Machine
end
